-- ==== Sys2Proof/Word.lean ====
section
/-! DEFINITION. The word types of the machine (spec/00_scope.md R6, R7, R8). -/

namespace Sys2Proof

/-- The addressable unit of memory, 8 bits (R7). -/
abbrev Byte := BitVec 8

/-- An x register, the pc, an address or an instruction word: XLEN = 32 bits (R6, R7, R100). -/
abbrev Word := BitVec 32

/-- A counter of 64 bits (R8, R30 to R32). -/
abbrev DWord := BitVec 64

/-- A register number, the 5-bit fields rd, rs1 and rs2 (R20, R101). -/
abbrev Reg := BitVec 5

end Sys2Proof
end

