-- ==== Sys2Proof/Machine/Flags.lean ====
section
/-! DEFINITION. The machine has no flags (spec/10_state.md R28): nothing records a carry, an overflow, a
zero or a sign. Comparisons give 0 or 1 in a register or decide a branch; they stand here. -/

namespace Sys2Proof.Machine

/-- `a <s b`: the two's-complement integers compare (R11, R152, R164, R207). -/
def lessSigned (a b : Word) : Bool := decide (a.toInt < b.toInt)

/-- `a <u b`: the natural numbers compare (R11, R153, R165, R208). -/
def lessUnsigned (a b : Word) : Bool := decide (a.toNat < b.toNat)

/-- `a ≥s b`, the negation of `a <s b` (R209). -/
def geSigned (a b : Word) : Bool := !lessSigned a b

/-- `a ≥u b`, the negation of `a <u b` (R210). -/
def geUnsigned (a b : Word) : Bool := !lessUnsigned a b

/-- The result of a comparison in a whole register: 1 or 0 (R173 (d)). -/
def truthWord (c : Bool) : Word := if c then 1#32 else 0#32

end Sys2Proof.Machine
end

