-- ==== Sys2Proof/Decode.lean ====
section
/-! DEFINITION. The decoder and, after it, the encoder (spec/30_encoding.md). The decoder is the
table of R118 read as R117 says: the row whose mask and match fit the word, then the fields of its
format. The numeric opcode, funct3, funct7 and funct12 values are the spec's, which marks them general
knowledge (G1; PRESUMED, unsafe if a chip differs, log entry 14). -/

namespace Sys2Proof

/-! ### Byte order (R61, R65) -/

/-- The number that little-endian bytes stand for: the first byte holds bits 7:0 (R61). -/
def leValue : List Byte → Nat
  | [] => 0
  | b :: bs => b.toNat + 256 * leValue bs

/-- The `n` little-endian bytes of a number, lowest first (R61). -/
def leBytes : Nat → Nat → List Byte
  | 0, _ => []
  | n + 1, v => BitVec.ofNat 8 v :: leBytes n (v / 256)

/-! ### Fields of an instruction word (R101) -/

/-- inst[6:0]. -/
def opcodeField (w : Word) : BitVec 7 := w.extractLsb' 0 7
/-- inst[11:7]. -/
def rdField (w : Word) : Reg := w.extractLsb' 7 5
/-- inst[14:12]. -/
def funct3Field (w : Word) : BitVec 3 := w.extractLsb' 12 3
/-- inst[19:15]. -/
def rs1Field (w : Word) : Reg := w.extractLsb' 15 5
/-- inst[24:20]; also the shift amount of R113. -/
def rs2Field (w : Word) : Reg := w.extractLsb' 20 5
/-- inst[31:25]. -/
def funct7Field (w : Word) : BitVec 7 := w.extractLsb' 25 7
/-- inst[31:20]: the I immediate (R103), or the CSR address (R114). -/
def immIField (w : Word) : BitVec 12 := w.extractLsb' 20 12
/-- imm[11:5] and imm[4:0] of the S format (R104, R109). -/
def immSField (w : Word) : BitVec 12 := w.extractLsb' 25 7 ++ w.extractLsb' 7 5
/-- The B immediate with its bit 0 (R105, R110). -/
def immBField (w : Word) : BitVec 13 :=
  w.extractLsb' 31 1 ++ w.extractLsb' 7 1 ++ w.extractLsb' 25 6 ++ w.extractLsb' 8 4 ++ 0#1
/-- inst[31:12] (R106, R111). -/
def immUField (w : Word) : BitVec 20 := w.extractLsb' 12 20
/-- The J immediate with its bit 0 (R107, R112). -/
def immJField (w : Word) : BitVec 21 :=
  w.extractLsb' 31 1 ++ w.extractLsb' 12 8 ++ w.extractLsb' 20 1 ++ w.extractLsb' 21 10 ++ 0#1

/-- A set of FENCE from its four bits, I, O, R, W from the high bit down (R115, R260; the order of
the bits is the spec's general knowledge G4, PRESUMED, log entry 14). -/
def fenceSetOfBits (b : BitVec 4) : FenceSet where
  i := b.getLsbD 3
  o := b.getLsbD 2
  r := b.getLsbD 1
  w := b.getLsbD 0

/-- inst[27:24], the predecessor set (R260). -/
def predField (w : Word) : FenceSet := fenceSetOfBits (w.extractLsb' 24 4)
/-- inst[23:20], the successor set (R260). -/
def succField (w : Word) : FenceSet := fenceSetOfBits (w.extractLsb' 20 4)

/-! ### The opcode table (R118) -/

/-- One row of R118, with the instruction its fields give. -/
structure Row where
  mnemonic : String
  mask : Word
  pattern : Word
  build : Word → Instr

/-- A word is a row's instruction when its bits under the mask are the row's match (R117). -/
def Row.fits (row : Row) (w : Word) : Bool := w &&& row.mask == row.pattern

/-- A row of the U or UJ format: only the opcode is fixed. -/
def rowOp (m : String) (op : BitVec 7) (build : Word → Instr) : Row where
  mnemonic := m
  mask := 0x0000007F#32
  pattern := 0#25 ++ op
  build := build

/-- A row that fixes funct3 and the opcode. -/
def rowF3 (m : String) (f3 : BitVec 3) (op : BitVec 7) (build : Word → Instr) : Row where
  mnemonic := m
  mask := 0x0000707F#32
  pattern := 0#17 ++ f3 ++ 0#5 ++ op
  build := build

/-- A row that fixes inst[31:25], funct3 and the opcode. -/
def rowF7 (m : String) (f7 : BitVec 7) (f3 : BitVec 3) (op : BitVec 7) (build : Word → Instr) : Row where
  mnemonic := m
  mask := 0xFE00707F#32
  pattern := f7 ++ 0#10 ++ f3 ++ 0#5 ++ op
  build := build

/-- A row that fixes the whole word: inst[31:20] under SYSTEM with funct3 PRIV, rs1 = rd = 0. -/
def rowPriv (m : String) (f12 : BitVec 12) (i : Instr) : Row where
  mnemonic := m
  mask := 0xFFFFFFFF#32
  pattern := f12 ++ 0#13 ++ 0b1110011#7
  build := fun _ => i

/-- The rows of the U and UJ formats (R118). -/
def upperRows : List Row :=
  [ rowOp "LUI" 0b0110111#7 (fun w => .lui (rdField w) (immUField w)),
    rowOp "AUIPC" 0b0010111#7 (fun w => .auipc (rdField w) (immUField w)),
    rowOp "JAL" 0b1101111#7 (fun w => .jal (rdField w) (immJField w)) ]

/-- JALR and the six branches (R118). -/
def controlRows : List Row :=
  [ rowF3 "JALR" 0b000#3 0b1100111#7 (fun w => .jalr (rdField w) (rs1Field w) (immIField w)),
    rowF3 "BEQ" 0b000#3 0b1100011#7 (fun w => .beq (rs1Field w) (rs2Field w) (immBField w)),
    rowF3 "BNE" 0b001#3 0b1100011#7 (fun w => .bne (rs1Field w) (rs2Field w) (immBField w)),
    rowF3 "BLT" 0b100#3 0b1100011#7 (fun w => .blt (rs1Field w) (rs2Field w) (immBField w)),
    rowF3 "BGE" 0b101#3 0b1100011#7 (fun w => .bge (rs1Field w) (rs2Field w) (immBField w)),
    rowF3 "BLTU" 0b110#3 0b1100011#7 (fun w => .bltu (rs1Field w) (rs2Field w) (immBField w)),
    rowF3 "BGEU" 0b111#3 0b1100011#7 (fun w => .bgeu (rs1Field w) (rs2Field w) (immBField w)) ]

/-- Loads and stores (R118). -/
def memoryRows : List Row :=
  [ rowF3 "LB" 0b000#3 0b0000011#7 (fun w => .lb (rdField w) (rs1Field w) (immIField w)),
    rowF3 "LH" 0b001#3 0b0000011#7 (fun w => .lh (rdField w) (rs1Field w) (immIField w)),
    rowF3 "LW" 0b010#3 0b0000011#7 (fun w => .lw (rdField w) (rs1Field w) (immIField w)),
    rowF3 "LBU" 0b100#3 0b0000011#7 (fun w => .lbu (rdField w) (rs1Field w) (immIField w)),
    rowF3 "LHU" 0b101#3 0b0000011#7 (fun w => .lhu (rdField w) (rs1Field w) (immIField w)),
    rowF3 "SB" 0b000#3 0b0100011#7 (fun w => .sb (rs2Field w) (rs1Field w) (immSField w)),
    rowF3 "SH" 0b001#3 0b0100011#7 (fun w => .sh (rs2Field w) (rs1Field w) (immSField w)),
    rowF3 "SW" 0b010#3 0b0100011#7 (fun w => .sw (rs2Field w) (rs1Field w) (immSField w)) ]

/-- Register-immediate operations (R118; the shift patterns of inst[31:25] are the source's, R113). -/
def immediateRows : List Row :=
  [ rowF3 "ADDI" 0b000#3 0b0010011#7 (fun w => .addi (rdField w) (rs1Field w) (immIField w)),
    rowF3 "SLTI" 0b010#3 0b0010011#7 (fun w => .slti (rdField w) (rs1Field w) (immIField w)),
    rowF3 "SLTIU" 0b011#3 0b0010011#7 (fun w => .sltiu (rdField w) (rs1Field w) (immIField w)),
    rowF3 "XORI" 0b100#3 0b0010011#7 (fun w => .xori (rdField w) (rs1Field w) (immIField w)),
    rowF3 "ORI" 0b110#3 0b0010011#7 (fun w => .ori (rdField w) (rs1Field w) (immIField w)),
    rowF3 "ANDI" 0b111#3 0b0010011#7 (fun w => .andi (rdField w) (rs1Field w) (immIField w)),
    rowF7 "SLLI" 0b0000000#7 0b001#3 0b0010011#7 (fun w => .slli (rdField w) (rs1Field w) (rs2Field w)),
    rowF7 "SRLI" 0b0000000#7 0b101#3 0b0010011#7 (fun w => .srli (rdField w) (rs1Field w) (rs2Field w)),
    rowF7 "SRAI" 0b0100000#7 0b101#3 0b0010011#7 (fun w => .srai (rdField w) (rs1Field w) (rs2Field w)) ]

/-- Register-register operations (R118). -/
def registerRows : List Row :=
  [ rowF7 "ADD" 0b0000000#7 0b000#3 0b0110011#7 (fun w => .add (rdField w) (rs1Field w) (rs2Field w)),
    rowF7 "SUB" 0b0100000#7 0b000#3 0b0110011#7 (fun w => .sub (rdField w) (rs1Field w) (rs2Field w)),
    rowF7 "SLL" 0b0000000#7 0b001#3 0b0110011#7 (fun w => .sll (rdField w) (rs1Field w) (rs2Field w)),
    rowF7 "SLT" 0b0000000#7 0b010#3 0b0110011#7 (fun w => .slt (rdField w) (rs1Field w) (rs2Field w)),
    rowF7 "SLTU" 0b0000000#7 0b011#3 0b0110011#7 (fun w => .sltu (rdField w) (rs1Field w) (rs2Field w)),
    rowF7 "XOR" 0b0000000#7 0b100#3 0b0110011#7 (fun w => .xor (rdField w) (rs1Field w) (rs2Field w)),
    rowF7 "SRL" 0b0000000#7 0b101#3 0b0110011#7 (fun w => .srl (rdField w) (rs1Field w) (rs2Field w)),
    rowF7 "SRA" 0b0100000#7 0b101#3 0b0110011#7 (fun w => .sra (rdField w) (rs1Field w) (rs2Field w)),
    rowF7 "OR" 0b0000000#7 0b110#3 0b0110011#7 (fun w => .or (rdField w) (rs1Field w) (rs2Field w)),
    rowF7 "AND" 0b0000000#7 0b111#3 0b0110011#7 (fun w => .and (rdField w) (rs1Field w) (rs2Field w)) ]

/-- MISC-MEM and SYSTEM (R118). The reserved fields of FENCE and FENCE.I are ignored (R120, R261, R263). -/
def systemRows : List Row :=
  [ rowF3 "FENCE" 0b000#3 0b0001111#7 (fun w => .fence (predField w) (succField w)),
    rowF3 "FENCE.I" 0b001#3 0b0001111#7 (fun _ => .fenceI),
    rowPriv "ECALL" 0#12 .ecall,
    rowPriv "EBREAK" 1#12 .ebreak,
    rowF3 "CSRRW" 0b001#3 0b1110011#7 (fun w => .csrrw (rdField w) (immIField w) (rs1Field w)),
    rowF3 "CSRRS" 0b010#3 0b1110011#7 (fun w => .csrrs (rdField w) (immIField w) (rs1Field w)),
    rowF3 "CSRRC" 0b011#3 0b1110011#7 (fun w => .csrrc (rdField w) (immIField w) (rs1Field w)),
    rowF3 "CSRRWI" 0b101#3 0b1110011#7 (fun w => .csrrwi (rdField w) (immIField w) (rs1Field w)),
    rowF3 "CSRRSI" 0b110#3 0b1110011#7 (fun w => .csrrsi (rdField w) (immIField w) (rs1Field w)),
    rowF3 "CSRRCI" 0b111#3 0b1110011#7 (fun w => .csrrci (rdField w) (immIField w) (rs1Field w)) ]

/-- The complete table (R118), in the order of spec/opcode_table.json. -/
def opcodeTable : List Row :=
  upperRows ++ (controlRows ++ (memoryRows ++ (immediateRows ++ (registerRows ++ systemRows))))

/-! ### Decoding (R117) -/

/-- Why bytes give no instruction. -/
inductive DecodeError where
  /-- No row of R118 fits the word (R119); the machine raises IllegalInstruction with the word. -/
  | illegalInstruction (w : Word)
  /-- Not the four bytes of an instruction (R100). The machine always fetches four. -/
  | wrongLength (n : Nat)
deriving DecidableEq, Repr

/-- `decode(inst)` of R117. The rows' match sets are disjoint, so the first that fits is the only one. -/
def decodeWord (w : Word) : Except DecodeError Instr :=
  match opcodeTable.find? (fun row => row.fits w) with
  | some row => .ok (row.build w)
  | none => .error (.illegalInstruction w)

/-- Decoding of bytes in the order they lie in memory: an instruction is four bytes, the first of them
inst[7:0] (R65, R100). -/
def decodeBytes (bytes : List Byte) : Except DecodeError Instr :=
  if bytes.length = 4 then decodeWord (BitVec.ofNat 32 (leValue bytes)) else .error (.wrongLength bytes.length)

/-- The instruction the decoder reads from a word numbered as spec/opcode_table.json numbers it, laid
out as the hardware stores it. Bits at `nbits` and above are 0. -/
def decodeTableWord (nbits w : Nat) : Option Instr :=
  match decodeBytes (leBytes 4 (w % 2 ^ nbits)) with
  | .ok i => some i
  | .error _ => none

/-! ### Encoding (R102 to R107, R113 to R115) -/

/-- R format (R102). -/
def packR (f7 : BitVec 7) (rs2 rs1 : Reg) (f3 : BitVec 3) (rd : Reg) (op : BitVec 7) : Word :=
  f7 ++ rs2 ++ rs1 ++ f3 ++ rd ++ op

/-- I format (R103); also the CSR form (R114). -/
def packI (imm : BitVec 12) (rs1 : Reg) (f3 : BitVec 3) (rd : Reg) (op : BitVec 7) : Word :=
  imm ++ rs1 ++ f3 ++ rd ++ op

/-- S format (R104). -/
def packS (imm : BitVec 12) (rs2 rs1 : Reg) (f3 : BitVec 3) (op : BitVec 7) : Word :=
  imm.extractLsb' 5 7 ++ rs2 ++ rs1 ++ f3 ++ imm.extractLsb' 0 5 ++ op

/-- SB format (R105); bit 0 of the offset is not encoded. -/
def packB (off : BitVec 13) (rs2 rs1 : Reg) (f3 : BitVec 3) (op : BitVec 7) : Word :=
  off.extractLsb' 12 1 ++ off.extractLsb' 5 6 ++ rs2 ++ rs1 ++ f3 ++ off.extractLsb' 1 4
    ++ off.extractLsb' 11 1 ++ op

/-- U format (R106). -/
def packU (imm20 : BitVec 20) (rd : Reg) (op : BitVec 7) : Word :=
  imm20 ++ rd ++ op

/-- UJ format (R107); bit 0 of the offset is not encoded. -/
def packJ (off : BitVec 21) (rd : Reg) (op : BitVec 7) : Word :=
  off.extractLsb' 20 1 ++ off.extractLsb' 1 10 ++ off.extractLsb' 11 1 ++ off.extractLsb' 12 8 ++ rd ++ op

/-- The four bits of a FENCE set (R115). -/
def bitsOfFenceSet (f : FenceSet) : BitVec 4 :=
  BitVec.ofBool f.i ++ BitVec.ofBool f.o ++ BitVec.ofBool f.r ++ BitVec.ofBool f.w

/-- The word of an instruction. The reserved fields of FENCE and FENCE.I are written 0, as software
should (R120). -/
def encode : Instr → Word
  | .lui rd imm20 => packU imm20 rd 0b0110111#7
  | .auipc rd imm20 => packU imm20 rd 0b0010111#7
  | .jal rd off => packJ off rd 0b1101111#7
  | .jalr rd rs1 imm => packI imm rs1 0b000#3 rd 0b1100111#7
  | .beq rs1 rs2 off => packB off rs2 rs1 0b000#3 0b1100011#7
  | .bne rs1 rs2 off => packB off rs2 rs1 0b001#3 0b1100011#7
  | .blt rs1 rs2 off => packB off rs2 rs1 0b100#3 0b1100011#7
  | .bge rs1 rs2 off => packB off rs2 rs1 0b101#3 0b1100011#7
  | .bltu rs1 rs2 off => packB off rs2 rs1 0b110#3 0b1100011#7
  | .bgeu rs1 rs2 off => packB off rs2 rs1 0b111#3 0b1100011#7
  | .lb rd rs1 imm => packI imm rs1 0b000#3 rd 0b0000011#7
  | .lh rd rs1 imm => packI imm rs1 0b001#3 rd 0b0000011#7
  | .lw rd rs1 imm => packI imm rs1 0b010#3 rd 0b0000011#7
  | .lbu rd rs1 imm => packI imm rs1 0b100#3 rd 0b0000011#7
  | .lhu rd rs1 imm => packI imm rs1 0b101#3 rd 0b0000011#7
  | .sb rs2 rs1 imm => packS imm rs2 rs1 0b000#3 0b0100011#7
  | .sh rs2 rs1 imm => packS imm rs2 rs1 0b001#3 0b0100011#7
  | .sw rs2 rs1 imm => packS imm rs2 rs1 0b010#3 0b0100011#7
  | .addi rd rs1 imm => packI imm rs1 0b000#3 rd 0b0010011#7
  | .slti rd rs1 imm => packI imm rs1 0b010#3 rd 0b0010011#7
  | .sltiu rd rs1 imm => packI imm rs1 0b011#3 rd 0b0010011#7
  | .xori rd rs1 imm => packI imm rs1 0b100#3 rd 0b0010011#7
  | .ori rd rs1 imm => packI imm rs1 0b110#3 rd 0b0010011#7
  | .andi rd rs1 imm => packI imm rs1 0b111#3 rd 0b0010011#7
  | .slli rd rs1 shamt => packR 0b0000000#7 shamt rs1 0b001#3 rd 0b0010011#7
  | .srli rd rs1 shamt => packR 0b0000000#7 shamt rs1 0b101#3 rd 0b0010011#7
  | .srai rd rs1 shamt => packR 0b0100000#7 shamt rs1 0b101#3 rd 0b0010011#7
  | .add rd rs1 rs2 => packR 0b0000000#7 rs2 rs1 0b000#3 rd 0b0110011#7
  | .sub rd rs1 rs2 => packR 0b0100000#7 rs2 rs1 0b000#3 rd 0b0110011#7
  | .sll rd rs1 rs2 => packR 0b0000000#7 rs2 rs1 0b001#3 rd 0b0110011#7
  | .slt rd rs1 rs2 => packR 0b0000000#7 rs2 rs1 0b010#3 rd 0b0110011#7
  | .sltu rd rs1 rs2 => packR 0b0000000#7 rs2 rs1 0b011#3 rd 0b0110011#7
  | .xor rd rs1 rs2 => packR 0b0000000#7 rs2 rs1 0b100#3 rd 0b0110011#7
  | .srl rd rs1 rs2 => packR 0b0000000#7 rs2 rs1 0b101#3 rd 0b0110011#7
  | .sra rd rs1 rs2 => packR 0b0100000#7 rs2 rs1 0b101#3 rd 0b0110011#7
  | .or rd rs1 rs2 => packR 0b0000000#7 rs2 rs1 0b110#3 rd 0b0110011#7
  | .and rd rs1 rs2 => packR 0b0000000#7 rs2 rs1 0b111#3 rd 0b0110011#7
  | .fence pred succ => packI (0#4 ++ bitsOfFenceSet pred ++ bitsOfFenceSet succ) 0#5 0b000#3 0#5 0b0001111#7
  | .fenceI => packI 0#12 0#5 0b001#3 0#5 0b0001111#7
  | .ecall => packI 0#12 0#5 0b000#3 0#5 0b1110011#7
  | .ebreak => packI 1#12 0#5 0b000#3 0#5 0b1110011#7
  | .csrrw rd csr rs1 => packI csr rs1 0b001#3 rd 0b1110011#7
  | .csrrs rd csr rs1 => packI csr rs1 0b010#3 rd 0b1110011#7
  | .csrrc rd csr rs1 => packI csr rs1 0b011#3 rd 0b1110011#7
  | .csrrwi rd csr zimm => packI csr zimm 0b101#3 rd 0b1110011#7
  | .csrrsi rd csr zimm => packI csr zimm 0b110#3 rd 0b1110011#7
  | .csrrci rd csr zimm => packI csr zimm 0b111#3 rd 0b1110011#7

end Sys2Proof
end

