-- ==== Sys2Proof/Machine/Operands.lean ====
section
/-! DEFINITION. The operand values of the instructions: immediates (spec/30_encoding.md R108 to R114),
shifts, and what a CSR instruction reads and writes (spec/44_csr_counters.md R287). -/

namespace Sys2Proof.Machine

/-- immI and immS: the 12-bit field sign-extended (R108, R109). -/
def immWord (imm : BitVec 12) : Word := imm.signExtend 32

/-- immB: the offset sign-extended (R110). -/
def branchOffset (off : BitVec 13) : Word := off.signExtend 32

/-- immU: the field in bits 31:12, twelve zero bits below (R111). -/
def upperWord (imm20 : BitVec 20) : Word := imm20 ++ 0#12

/-- immJ: the offset sign-extended (R112). -/
def jumpOffset (off : BitVec 21) : Word := off.signExtend 32

/-- zimm: the 5-bit field zero-extended (R114). -/
def zimmWord (zimm : BitVec 5) : Word := zimm.setWidth 32

/-- The shift amount a register gives: its low five bits (R169 to R171). -/
def shiftAmount (v : Word) : BitVec 5 := v.setWidth 5

/-- `a << k` (R11). -/
def shiftLeft (a : Word) (k : BitVec 5) : Word := a <<< k.toNat

/-- `a >>u k` (R11). -/
def shiftRightLogical (a : Word) (k : BitVec 5) : Word := a >>> k.toNat

/-- `a >>s k` (R11). -/
def shiftRightArith (a : Word) (k : BitVec 5) : Word := a.sshiftRight k.toNat

/-! ### CSR operands -/

/-- The six CSRs that exist (R33). -/
inductive Csr where
  | cycle
  | time
  | instret
  | cycleh
  | timeh
  | instreth
deriving DecidableEq, Repr

/-- The CSR at a 12-bit address; the other 4090 addresses name none (R33, R35). The numbers are the
spec's general knowledge (G3; PRESUMED, log entry 15). -/
def csrAt (a : BitVec 12) : Option Csr :=
  if a = 0xC00#12 then some .cycle
  else if a = 0xC01#12 then some .time
  else if a = 0xC02#12 then some .instret
  else if a = 0xC80#12 then some .cycleh
  else if a = 0xC81#12 then some .timeh
  else if a = 0xC82#12 then some .instreth
  else none

/-- All six are read-only at user level (R34). -/
def Csr.readOnly : Csr → Bool
  | .cycle => true
  | .time => true
  | .instret => true
  | .cycleh => true
  | .timeh => true
  | .instreth => true

/-- The three operations of the CSR instructions, register and immediate form alike (R281 to R286). -/
inductive CsrOp where
  | swap
  | setBits
  | clearBits
deriving DecidableEq, Repr

/-- When the instruction reads the CSR (R287). -/
def csrReads (op : CsrOp) (rd : Reg) : Bool :=
  match op with
  | .swap => rd != 0#5
  | .setBits => true
  | .clearBits => true

/-- When the instruction writes the CSR: `field` is the register number rs1 or the immediate zimm, not a
register's value (R287). -/
def csrWrites (op : CsrOp) (field : BitVec 5) : Bool :=
  match op with
  | .swap => true
  | .setBits => field != 0#5
  | .clearBits => field != 0#5

/-- The value a CSR write moves, where it can succeed (R287, last column). -/
def csrNewValue (op : CsrOp) (old operand : Word) : Word :=
  match op with
  | .swap => operand
  | .setBits => old ||| operand
  | .clearBits => old &&& ~~~operand

end Sys2Proof.Machine
end

