-- ==== Sys2Proof/Config.lean ====
section
/-! DEFINITION. What the implementation or the execution environment fixes (spec/00_scope.md R9) and
the free values. The rest of R9's parameters: `XLEN` is 32 (Word.lean); `EXT_M`, `EXT_C` and
`MISALIGNED_DATA_TRAPS` are false and `NHARTS` is 1 by the form of the machine (R5, R67, R79);
`INIT_MEM` is what stands in memory when a program starts (log entry 7); `EEI_RESUME` is
`Config.eeiResume` in Machine/State.lean. -/

namespace Sys2Proof

/-- The kinds of access that `Accessible` tells apart (R9, R70). -/
inductive AccessKind where
  | fetch
  | load
  | store
deriving DecidableEq, Repr

/-- The bytes from `base` on, `size` of them, with their access rights and whether they are I/O. -/
structure Region where
  base : Nat
  size : Nat
  fetch : Bool
  load : Bool
  store : Bool
  io : Bool
deriving DecidableEq, Repr

/-- The parameters `Accessible(addr, kind)` and `IsIO(addr)` of R9, per byte: the first region that
holds a byte gives its attributes, and a byte in no region is not accessible and not I/O. Every
pair of predicates on the 2^32 addresses is such a list. -/
structure Platform where
  regions : List Region
deriving DecidableEq, Repr

/-- `RESET_PC` (R45). The spec leaves it open but for alignment. DESIGN CHOICE 0, unsafe (log entry 4). -/
def Config.resetPc : Word := 0x00000000#32

/-- `INSTRET0` (R46). The spec leaves it open. DESIGN CHOICE 0, unsafe (log entry 5). -/
def Config.instret0 : DWord := 0#64

/-- What x1 to x31 hold at reset (R44). The spec gives none. DESIGN CHOICE 0, unsafe (log entry 3). -/
def Config.resetRegister : Word := 0#32

/-- The platform of `State.reset`: every byte accessible for every kind (DESIGN CHOICE, unsafe, log
entry 8) and none of them I/O (the spec's default, R72). -/
def Config.resetPlatform : Platform where
  regions := [{ base := 0, size := 2 ^ 32, fetch := true, load := true, store := true, io := false }]

/-- `CycleDraw` (R30): what the environment answers to the oracle query with this number. Free. -/
opaque Config.cycleDraw : Nat → DWord

/-- `TimeDraw` (R31): as `Config.cycleDraw`. Free. -/
opaque Config.timeDraw : Nat → DWord

/-- What a device answers for byte `i` of an access to I/O addresses (R72): the query's number, then
the byte's place in the access. Free. -/
opaque Config.deviceByte : Nat → Nat → Byte

/-- Which of the values that R77 allows a fetch of a stale byte returns: the query's number, then
the byte's place in the fetched word. Free. -/
opaque Config.fetchChoice : Nat → Nat → Nat

end Sys2Proof
end

