-- ==== Sys2Proof/Machine/Platform.lean ====
section
/-! DEFINITION. What the platform says of an address: `Accessible` and `IsIO` (spec/20_memory.md R70,
R72), the classes of an access (R76), and opening bytes for an instruction placed from outside. -/

namespace Sys2Proof

/-- The region holds the byte. -/
def Region.holds (r : Region) (a : Word) : Bool := decide (r.base ≤ a.toNat) && decide (a.toNat < r.base + r.size)

/-- A region's right for a kind of access. -/
def Region.allows (r : Region) : AccessKind → Bool
  | .fetch => r.fetch
  | .load => r.load
  | .store => r.store

/-- `Accessible(a, kind)` (R70). -/
def Platform.accessible (p : Platform) (kind : AccessKind) (a : Word) : Bool :=
  match p.regions.find? (fun r => r.holds a) with
  | some r => r.allows kind
  | none => false

/-- `IsIO(a)` (R72). -/
def Platform.isIO (p : Platform) (a : Word) : Bool :=
  match p.regions.find? (fun r => r.holds a) with
  | some r => r.io
  | none => false

/-- The classes of a load over these bytes: R, or I where a byte is I/O, or both (R76). -/
def loadClasses (p : Platform) (as : List Word) : FenceSet where
  i := as.any (fun a => p.isIO a)
  o := false
  r := as.any (fun a => !p.isIO a)
  w := false

/-- The classes of a store over these bytes: W, or O, or both (R76). -/
def storeClasses (p : Platform) (as : List Word) : FenceSet where
  i := false
  o := as.any (fun a => p.isIO a)
  r := false
  w := as.any (fun a => !p.isIO a)

/-- Two sets share a kind. -/
def FenceSet.meets (a b : FenceSet) : Bool := (a.i && b.i) || (a.o && b.o) || (a.r && b.r) || (a.w && b.w)

/-- A region of one byte that any access may use and that is not I/O. -/
def openByte (a : Word) : Region where
  base := a.toNat
  size := 1
  fetch := true
  load := true
  store := true
  io := false

/-- The platform, opened for a fetch of these bytes where it is not open already. -/
def Platform.openFor (p : Platform) (as : List Word) : Platform :=
  if as.all (fun a => p.accessible .fetch a && !p.isIO a) then p
  else { regions := as.map openByte ++ p.regions }

end Sys2Proof
end

