-- ==== Sys2Proof/Machine/Memory.lean ====
section
/-! DEFINITION. Memory and the hidden fetch view as sorted lists of plain data, and the operations
on one byte of them (spec/10_state.md R37, R39; spec/20_memory.md R60, R77). -/

namespace Sys2Proof.Machine

/-! ### Sorted association lists -/

/-- The value listed for a key. -/
def assocFind {α : Type} (a : Nat) : List (Nat × α) → Option α
  | [] => none
  | (k, v) :: rest => if k = a then some v else assocFind a rest

/-- List a value for a key, in place of the one listed before, keeping keys rising. -/
def assocSet {α : Type} (a : Nat) (v : α) : List (Nat × α) → List (Nat × α)
  | [] => [(a, v)]
  | (k, w) :: rest =>
    if a < k then (a, v) :: (k, w) :: rest
    else if a = k then (a, v) :: rest
    else (k, w) :: assocSet a v rest

/-- Keys strictly rise, none is below `lo` and all are byte addresses. -/
def assocRising {α : Type} (lo : Nat) : List (Nat × α) → Bool
  | [] => true
  | (k, _) :: rest => decide (lo ≤ k) && decide (k < 2 ^ 32) && assocRising (k + 1) rest

/-! ### Memory -/

/-- Memory: (address, byte) pairs. An unlisted address holds NO value (R47: unspecified; log entry 6). -/
structure Memory where
  cells : List Host.Cell
deriving DecidableEq, Repr

/-- The canonical form: addresses strictly rising and below 2^32. -/
def Memory.wf (m : Memory) : Bool := assocRising 0 m.cells

/-- The byte at an address, `M[a]` of R62, or none where nothing has been written. -/
def Memory.read (m : Memory) (a : Word) : Option Byte := assocFind a.toNat m.cells

/-- Write one byte (R63). -/
def Memory.write (m : Memory) (a : Word) (b : Byte) : Memory where
  cells := assocSet a.toNat b m.cells

/-! ### The hidden fetch view (R39) -/

/-- The bytes the hart has stored to since its last FENCE.I, each with the values it held earlier
since then; none stands for a byte that held no value. -/
structure FetchView where
  stale : List (Nat × List (Option Byte))
deriving DecidableEq, Repr

/-- The canonical form: addresses rising, and every listed byte has an earlier value. -/
def FetchView.wf (v : FetchView) : Bool :=
  assocRising 0 v.stale && v.stale.all (fun e => !e.2.isEmpty)

/-- The empty view: fetch sees memory as it is (R47, R262). -/
def FetchView.empty : FetchView where
  stale := []

/-- The earlier values of a byte that a fetch may still return (R77). -/
def FetchView.older (v : FetchView) (a : Word) : List (Option Byte) :=
  (assocFind a.toNat v.stale).getD []

/-- A store is about to replace the value `old` at `a`: the fetch view keeps it (R39). -/
def FetchView.record (v : FetchView) (a : Word) (old : Option Byte) : FetchView where
  stale := assocSet a.toNat (if old ∈ v.older a then v.older a else old :: v.older a) v.stale

/-- Forget the earlier values of one byte. Only placing a program from outside does this. -/
def FetchView.forget (v : FetchView) (a : Word) : FetchView where
  stale := v.stale.filter (fun e => e.1 != a.toNat)

end Sys2Proof.Machine
end

