-- ==== Sys2Proof/Machine/State.lean ====
section
/-! DEFINITION. The state of the one-hart machine, the reasons a step can stop, and the state after
reset (spec/10_state.md; spec/60_exceptions.md R330, R338; spec/70_reset_and_hazards.md R380). -/

namespace Sys2Proof.Machine

/-- The seven synchronous exceptions, by the names of R330. -/
inductive Cause where
  | instructionAddressMisaligned
  | illegalInstruction
  | instructionAccessFault
  | loadAccessFault
  | storeAccessFault
  | environmentCall
  | breakpoint
deriving DecidableEq, Repr

/-- The triple of a hand-off to the execution environment (R338): cause, the pc of the instruction
that raised it, and the value of R330's last column. -/
structure Trap where
  cause : Cause
  epc : Word
  info : Option Word
deriving DecidableEq, Repr

/-- One operation of the hart as other agents may observe it (R41, R75): an access with its classes
(R76), its address and its bytes, or a FENCE with its predecessor and successor sets (R260). -/
inductive MemOp where
  | load (classes : FenceSet) (addr : Word) (bytes : List Byte)
  | store (classes : FenceSet) (addr : Word) (bytes : List Byte)
  | fence (pred succ : FenceSet)
deriving DecidableEq, Repr

/-- The machine's state. `cycle` and `time` hold what the last read of the counter answered, the floor
of the next draw (R30, R31). `opLog` holds the hart's operations, newest first (R41). `handoff` is
some triple when the hart is stopped at a hand-off (R350, R351). `platform` is the parameters
`Accessible` and `IsIO` (log entry 8). `draws` is the model's own: how many oracle queries have been
answered (log entry 22). -/
structure State where
  regs : Vector Word 31
  pc : Word
  instret : DWord
  cycle : DWord
  time : DWord
  mem : Memory
  fetchView : FetchView
  opLog : List MemOp
  handoff : Option Trap
  platform : Platform
  draws : Nat
deriving DecidableEq, Repr

/-- Why the machine stops with a fault of the model. -/
inductive Fault where
  /-- A load, or the fetch, of a byte that holds no value, because nothing has written it since reset
  (R47, D23: `UNWRITTEN_REG_POLICY = fault` for memory). Raised by LB, LH, LW, LBU, LHU and by the fetch
  of any instruction. Safe: the hardware goes on with some byte. -/
  | unwrittenByte (addr : Word)
  /-- A step asked of a hart that stopped at this hand-off, where the execution environment resumes
  nothing (R350, R351). Raised by the step alone, by no instruction. Safe: the run has ended. -/
  | stopped (trap : Trap)
deriving DecidableEq, Repr

/-- Why the machine refuses an instruction. -/
inductive Refusal where
  /-- An instruction with no meaning yet. No arm of `exec` answers so. Safe. -/
  | notModelled (mnemonic : String)
deriving DecidableEq, Repr

/-- The state right after reset (R43 to R48, R380). -/
def State.reset : State where
  regs := Vector.replicate 31 Config.resetRegister
  pc := Config.resetPc
  instret := Config.instret0
  cycle := 0#64
  time := 0#64
  mem := { cells := [] }
  fetchView := FetchView.empty
  opLog := []
  handoff := none
  platform := Config.resetPlatform
  draws := 0

/-- The hart state from which the execution environment lets stepping go on (R338). It may change
registers, pc, instret (D24), memory and the fetch view. -/
structure Resumption where
  regs : Vector Word 31
  pc : Word
  instret : DWord
  mem : Memory
  fetchView : FetchView
deriving DecidableEq, Repr

/-- What a resumed hart state keeps: the pc is a multiple of 4 (R26), memory and fetch view canonical. -/
def Resumption.wf (r : Resumption) : Bool :=
  decide (r.pc.toNat % 4 = 0) && r.mem.wf && r.fetchView.wf

end Sys2Proof.Machine

namespace Sys2Proof

/-- `EEI_RESUME(outcome, state)` (R9, R338): what the execution environment does after a hand-off, the
new hart state or nothing. Free (log entry 2). -/
opaque Config.eeiResume :
    Machine.Trap → Machine.State → Option { r : Machine.Resumption // r.wf = true }

end Sys2Proof
end

