-- ==== Sys2Proof/Machine/Ops.lean ====
section
/-! DEFINITION. The named operations over registers, memory, counters and hand-offs. The meanings of
the instructions are written over these alone. -/

namespace Sys2Proof.Machine

/-- What a step or an instruction answers. -/
abbrev Result := Host.Outcome State Fault Refusal

/-! ### Registers (R20 to R22) -/

/-- `x[r]`: x0 reads 0, the others their value (R21). -/
def State.reg (s : State) (r : Reg) : Word :=
  if r = 0#5 then 0#32 else s.regs[r.toNat - 1]'(by have := r.isLt; omega)

/-- `x[r] <- v`: a write to x0 is discarded (R21). -/
def State.setReg (s : State) (r : Reg) (v : Word) : State :=
  if r = 0#5 then s else { s with regs := s.regs.set (r.toNat - 1) v (by have := r.isLt; omega) }

/-! ### Retirement, taking an exception, and going on after one -/

/-- The instruction completes: the next is fetched from `next`, and instret counts it, modulo 2^64
(R13, R25, R32). -/
def State.retire (s : State) (next : Word) : State :=
  { s with pc := next, instret := s.instret + 1#64 }

/-- The address of the next instruction in sequence, modulo 2^32 (R25, R27). -/
def State.nextPc (s : State) : Word := s.pc + 4#32

/-- `raise cause(info)`, the one trap entry of the machine (R338): the hart stops at a hand-off with the
triple; no register, no byte, no counter and not the pc changes (R339). The outcome `Trap` of R14 is
this state (log entry 1). -/
def State.raise (s : State) (cause : Cause) (info : Option Word) : State :=
  { s with handoff := some { cause := cause, epc := s.pc, info := info } }

/-- The hart goes on from the state the environment returned (R338, R343). The counters' floors, the
operation log and the platform stay. -/
def State.resume (s : State) (r : Resumption) : State :=
  { s with regs := r.regs, pc := r.pc, instret := r.instret, mem := r.mem, fetchView := r.fetchView,
           handoff := none, draws := s.draws + 1 }

/-- A step asked at a hand-off: the environment resumes the hart or the run has ended (R351). -/
def afterHandoff (trap : Trap) (s : State) : Result :=
  match Config.eeiResume trap s with
  | some r => .next (s.resume r.val)
  | none => .fault (.stopped trap)

/-- The conventional numeric code of a cause in a standard RISC-V environment. No rule depends on it
(R337, informative). -/
def Cause.conventionalCode : Cause → Nat
  | .instructionAddressMisaligned => 0
  | .instructionAccessFault => 1
  | .illegalInstruction => 2
  | .breakpoint => 3
  | .loadAccessFault => 5
  | .storeAccessFault => 7
  | .environmentCall => 8

/-! ### Finishing an instruction -/

/-- Write a result to rd and go on in sequence (R25, R150). -/
def writeResult (rd : Reg) (v : Word) (s : State) : Result :=
  .next ((s.setReg rd v).retire s.nextPc)

/-- Stop at a hand-off. -/
def trap (cause : Cause) (info : Option Word) (s : State) : Result :=
  .next (s.raise cause info)

/-! ### Control transfer (R200 to R204) -/

/-- A target is a multiple of 4 (R203). -/
def aligned4 (t : Word) : Bool := t.setWidth 2 == 0#2

/-- A jump: a misaligned target raises the exception before rd is written; else link and go
(R201, R202, R203). -/
def jump (rd : Reg) (target : Word) (s : State) : Result :=
  if aligned4 target then .next ((s.setReg rd s.nextPc).retire target)
  else trap .instructionAddressMisaligned (some target) s

/-- A conditional branch: only a taken one looks at its target (R203, R204). -/
def branch (cond : Bool) (off : BitVec 13) (s : State) : Result :=
  if cond then
    if aligned4 (s.pc + branchOffset off) then .next (s.retire (s.pc + branchOffset off))
    else trap .instructionAddressMisaligned (some (s.pc + branchOffset off)) s
  else .next (s.retire s.nextPc)

/-! ### Addresses (R66) -/

/-- The `n` byte addresses from `a` on, modulo 2^32 (R62, R66). -/
def byteAddrs (a : Word) (n : Nat) : List Word := (List.range n).map (fun i => a + BitVec.ofNat 32 i)

/-! ### Reading and writing memory (R62, R63) -/

/-- How an access ends. -/
inductive Access (α : Type) where
  /-- The bytes are there. -/
  | ok (v : α)
  /-- Some byte is not accessible for this kind (R70). -/
  | denied
  /-- An accessible byte holds no value (R47). -/
  | noValue (addr : Word)
deriving DecidableEq, Repr

/-- Byte `i` of a load: memory's, or what the device answers (R62, R72). -/
def loadByte (s : State) (i : Nat) (a : Word) : Option Byte :=
  if s.platform.isIO a then some (Config.deviceByte s.draws i) else s.mem.read a

/-- The bytes at consecutive places of an access, from place `i` on, each read by `byteAt`. -/
def gather (byteAt : Nat → Word → Option Byte) : Nat → List Word → Access (List Byte)
  | _, [] => .ok []
  | i, a :: rest =>
    match byteAt i a with
    | none => .noValue a
    | some b =>
      match gather byteAt (i + 1) rest with
      | .ok bs => .ok (b :: bs)
      | .denied => .denied
      | .noValue a' => .noValue a'

/-- An operation joins the log. -/
def State.observe (s : State) (op : MemOp) : State := { s with opLog := op :: s.opLog }

/-- An oracle query is used up when `drawn`. -/
def State.countDraw (s : State) (drawn : Bool) : State :=
  if drawn then { s with draws := s.draws + 1 } else s

/-- `MemRead(a, n)` (R62): the check of all bytes first, then the bytes, lowest first, and the state after
the access. -/
def memRead (a : Word) (n : Nat) (s : State) : Access (List Byte × State) :=
  if (byteAddrs a n).all (fun b => s.platform.accessible .load b) then
    match gather (loadByte s) 0 (byteAddrs a n) with
    | .ok bytes =>
      .ok (bytes, (s.countDraw ((byteAddrs a n).any (fun b => s.platform.isIO b))).observe
        (.load (loadClasses s.platform (byteAddrs a n)) a bytes))
    | .denied => .denied
    | .noValue b => .noValue b
  else .denied

/-- One byte of a store: memory changes and the fetch view keeps what was there (R39, R63); a byte of
I/O goes to the device alone (R72). -/
def State.storeByte (s : State) (a : Word) (b : Byte) : State :=
  if s.platform.isIO a then s
  else { s with mem := s.mem.write a b, fetchView := s.fetchView.record a (s.mem.read a) }

/-- The bytes of a store at their addresses, lowest first. -/
def State.storeBytes (s : State) : List Word → List Byte → State
  | a :: as, b :: bs => (s.storeByte a b).storeBytes as bs
  | [], _ => s
  | _, [] => s

/-- `MemWrite(a, n, v)` (R63): the check of all bytes precedes every write; none where it fails. -/
def memWrite (a : Word) (n : Nat) (v : Nat) (s : State) : Option State :=
  if (byteAddrs a n).all (fun b => s.platform.accessible .store b) then
    some ((s.storeBytes (byteAddrs a n) (leBytes n v)).observe
      (.store (storeClasses s.platform (byteAddrs a n)) a (leBytes n v)))
  else none

/-- The effective address of a load or a store, modulo 2^32 (R230). -/
def effectiveAddr (rs1 : Reg) (imm : BitVec 12) (s : State) : Word := s.reg rs1 + immWord imm

/-- A load of `n` bytes: `extend` makes the register value of the number the bytes stand for
(R231 to R235). -/
def load (rd rs1 : Reg) (imm : BitVec 12) (n : Nat) (extend : Nat → Word) (s : State) : Result :=
  match memRead (effectiveAddr rs1 imm s) n s with
  | .ok (bytes, t) => .next ((t.setReg rd (extend (leValue bytes))).retire s.nextPc)
  | .denied => trap .loadAccessFault (some (effectiveAddr rs1 imm s)) s
  | .noValue a => .fault (.unwrittenByte a)

/-- A store of the low `n` bytes of x[rs2] (R236 to R238). -/
def store (rs2 rs1 : Reg) (imm : BitVec 12) (n : Nat) (s : State) : Result :=
  match memWrite (effectiveAddr rs1 imm s) n (s.reg rs2).toNat s with
  | some t => .next (t.retire s.nextPc)
  | none => trap .storeAccessFault (some (effectiveAddr rs1 imm s)) s

/-! ### The order FENCE promises (R75) -/

/-- The classes of an operation; a FENCE is of none. -/
def MemOp.classes : MemOp → FenceSet
  | .load c _ _ => c
  | .store c _ _ => c
  | .fence _ _ => { i := false, o := false, r := false, w := false }

/-- The operation is an access that every other agent sees whole: its address is a multiple of its
width (R68). -/
def MemOp.atomic : MemOp → Bool
  | .load _ a bytes => a.toNat % bytes.length == 0
  | .store _ a bytes => a.toNat % bytes.length == 0
  | .fence _ _ => false

/-- In a log with the newest operation first, no other agent may see the operation at place `later`
before the one at place `earlier`: a FENCE stands between them whose predecessor set holds a
class of the earlier and whose successor set a class of the later (R75). -/
def mustPrecede (log : List MemOp) (earlier later : Nat) : Prop :=
  ∃ k pred succ x y, later < k ∧ k < earlier ∧ log[k]? = some (.fence pred succ) ∧
    log[earlier]? = some x ∧ log[later]? = some y ∧
    x.classes.meets pred = true ∧ y.classes.meets succ = true

/-! ### Counters and CSRs (R30 to R34, R287 to R289) -/

/-- A draw is never below the counter's last answer (R287). -/
def drawn (floor draw : DWord) : DWord := if floor.toNat ≤ draw.toNat then draw else floor

/-- A read of the cycle counter: one oracle query (R30, R287). -/
def State.drawCycle (s : State) : State :=
  { s with cycle := drawn s.cycle (Config.cycleDraw s.draws), draws := s.draws + 1 }

/-- A read of the time counter: one oracle query (R31, R287). -/
def State.drawTime (s : State) : State :=
  { s with time := drawn s.time (Config.timeDraw s.draws), draws := s.draws + 1 }

/-- Bits 31:0 of a counter (R33). -/
def lowHalf (v : DWord) : Word := v.extractLsb' 0 32

/-- Bits 63:32 of a counter (R33). -/
def highHalf (v : DWord) : Word := v.extractLsb' 32 32

/-- `CsrRead(c)`: the value, and the state after the query (R287). instret is the count before the
reading instruction retires (R288). -/
def csrRead (c : Csr) (s : State) : Word × State :=
  match c with
  | .cycle => (lowHalf s.drawCycle.cycle, s.drawCycle)
  | .cycleh => (highHalf s.drawCycle.cycle, s.drawCycle)
  | .time => (lowHalf s.drawTime.time, s.drawTime)
  | .timeh => (highHalf s.drawTime.time, s.drawTime)
  | .instret => (lowHalf s.instret, s)
  | .instreth => (highHalf s.instret, s)

/-- `CSR[c] <- v`, the write half of R281 to R286. No CSR of this machine is writable (R34), so no
instruction reaches it (log entry 16). -/
def csrWrite (c : Csr) (v : Word) (s : State) : State :=
  match c with
  | .cycle => { s with cycle := highHalf s.cycle ++ v }
  | .cycleh => { s with cycle := v ++ lowHalf s.cycle }
  | .time => { s with time := highHalf s.time ++ v }
  | .timeh => { s with time := v ++ lowHalf s.time }
  | .instret => { s with instret := highHalf s.instret ++ v }
  | .instreth => { s with instret := v ++ lowHalf s.instret }

/-- The common execution of the CSR instructions (R280). `word` is the instruction's word, the info of
IllegalInstruction; `field` is inst[19:15] and `operand` the value it gives. A written value takes
effect after the instruction's own retirement (R288). -/
def csrInstruction (op : CsrOp) (word : Word) (csr : BitVec 12) (rd : Reg) (field : BitVec 5)
    (operand : Word) (s : State) : Result :=
  match csrAt csr with
  | none => trap .illegalInstruction (some word) s
  | some c =>
    if csrWrites op field && c.readOnly then trap .illegalInstruction (some word) s
    else
      let access := if csrReads op rd then csrRead c s else (0#32, s)
      let done := (access.2.setReg rd access.1).retire s.nextPc
      .next (if csrWrites op field then csrWrite c (csrNewValue op access.1 operand) done else done)

/-! ### Fetch (R65, R69, R77) -/

/-- Byte `i` of a fetch: what the device answers, or memory's byte, or, for a stale byte, that or an
earlier one, as the free choice says (R72, R77; log entry 10). -/
def fetchByte (s : State) (i : Nat) (a : Word) : Option Byte :=
  if s.platform.isIO a then some (Config.deviceByte s.draws i)
  else
    match s.fetchView.older a with
    | [] => s.mem.read a
    | o :: os => ((s.mem.read a :: o :: os)[Config.fetchChoice s.draws i % (os.length + 2)]?).getD none

/-- The fetch of a byte asks an oracle. -/
def fetchDraws (s : State) (a : Word) : Bool := s.platform.isIO a || !(s.fetchView.older a).isEmpty

/-- `Fetch(pc)`: the little-endian word at the pc, and the state after the oracle's answer (R65, R69). -/
def fetch (s : State) : Access (Word × State) :=
  if (byteAddrs s.pc 4).all (fun a => s.platform.accessible .fetch a) then
    match gather (fetchByte s) 0 (byteAddrs s.pc 4) with
    | .ok bytes =>
      .ok (BitVec.ofNat 32 (leValue bytes), s.countDraw ((byteAddrs s.pc 4).any (fun a => fetchDraws s a)))
    | .denied => .denied
    | .noValue a => .noValue a
  else .denied

/-! ### Placing an instruction from outside -/

/-- One byte placed by a loader outside the machine: memory holds it and fetch sees it (R47, R382). -/
def State.placeByte (s : State) (a : Word) (b : Byte) : State :=
  { s with mem := s.mem.write a b, fetchView := s.fetchView.forget a }

/-- Bytes placed at their addresses. -/
def State.placeBytes (s : State) : List Word → List Byte → State
  | a :: as, b :: bs => (s.placeByte a b).placeBytes as bs
  | [], _ => s
  | _, [] => s

/-- The word placed where the hart fetches next, and the hart stepping. -/
def State.placeWord (s : State) (w : Nat) : State :=
  { s.placeBytes (byteAddrs s.pc 4) (leBytes 4 w) with
    platform := s.platform.openFor (byteAddrs s.pc 4), handoff := none }

end Sys2Proof.Machine
end

