-- ==== Sys2Proof/Machine/Control.lean ====
section
/-! DEFINITION. Jumps and branches (spec/41_control_transfer.md R200 to R211). -/

namespace Sys2Proof.Machine

/-- JAL (R201). -/
def execJal (rd : Reg) (off : BitVec 21) (s : State) : Result :=
  jump rd (s.pc + jumpOffset off) s

/-- JALR: bit 0 of the sum is forced to 0, and x[rs1] is read before rd is written (R202). -/
def execJalr (rd rs1 : Reg) (imm : BitVec 12) (s : State) : Result :=
  jump rd ((s.reg rs1 + immWord imm) &&& 0xFFFFFFFE#32) s

/-- BEQ (R205). -/
def execBeq (rs1 rs2 : Reg) (off : BitVec 13) (s : State) : Result :=
  branch (s.reg rs1 == s.reg rs2) off s

/-- BNE (R206). -/
def execBne (rs1 rs2 : Reg) (off : BitVec 13) (s : State) : Result :=
  branch (s.reg rs1 != s.reg rs2) off s

/-- BLT (R207). -/
def execBlt (rs1 rs2 : Reg) (off : BitVec 13) (s : State) : Result :=
  branch (lessSigned (s.reg rs1) (s.reg rs2)) off s

/-- BGE (R209). -/
def execBge (rs1 rs2 : Reg) (off : BitVec 13) (s : State) : Result :=
  branch (geSigned (s.reg rs1) (s.reg rs2)) off s

/-- BLTU (R208). -/
def execBltu (rs1 rs2 : Reg) (off : BitVec 13) (s : State) : Result :=
  branch (lessUnsigned (s.reg rs1) (s.reg rs2)) off s

/-- BGEU (R210). -/
def execBgeu (rs1 rs2 : Reg) (off : BitVec 13) (s : State) : Result :=
  branch (geUnsigned (s.reg rs1) (s.reg rs2)) off s

end Sys2Proof.Machine
end

