-- ==== Sys2Proof/Machine/Csrs.lean ====
section
/-! DEFINITION. The six CSR instructions (spec/44_csr_counters.md R280 to R289). The word of the
instruction, which IllegalInstruction reports (R289), is read back from its fields. -/

namespace Sys2Proof.Machine

/-- CSRRW (R281). -/
def execCsrrw (rd : Reg) (csr : BitVec 12) (rs1 : Reg) (s : State) : Result :=
  csrInstruction .swap (encode (.csrrw rd csr rs1)) csr rd rs1 (s.reg rs1) s

/-- CSRRS (R282). -/
def execCsrrs (rd : Reg) (csr : BitVec 12) (rs1 : Reg) (s : State) : Result :=
  csrInstruction .setBits (encode (.csrrs rd csr rs1)) csr rd rs1 (s.reg rs1) s

/-- CSRRC (R283). -/
def execCsrrc (rd : Reg) (csr : BitVec 12) (rs1 : Reg) (s : State) : Result :=
  csrInstruction .clearBits (encode (.csrrc rd csr rs1)) csr rd rs1 (s.reg rs1) s

/-- CSRRWI (R284). -/
def execCsrrwi (rd : Reg) (csr : BitVec 12) (zimm : BitVec 5) (s : State) : Result :=
  csrInstruction .swap (encode (.csrrwi rd csr zimm)) csr rd zimm (zimmWord zimm) s

/-- CSRRSI (R285). -/
def execCsrrsi (rd : Reg) (csr : BitVec 12) (zimm : BitVec 5) (s : State) : Result :=
  csrInstruction .setBits (encode (.csrrsi rd csr zimm)) csr rd zimm (zimmWord zimm) s

/-- CSRRCI (R286). -/
def execCsrrci (rd : Reg) (csr : BitVec 12) (zimm : BitVec 5) (s : State) : Result :=
  csrInstruction .clearBits (encode (.csrrci rd csr zimm)) csr rd zimm (zimmWord zimm) s

end Sys2Proof.Machine
end

