-- ==== Sys2Proof/Machine/Environment.lean ====
section
/-! DEFINITION. ECALL and EBREAK (spec/45_environment.md R320, R321). -/

namespace Sys2Proof.Machine

/-- ECALL: a hand-off to the execution environment (R320, R334). -/
def execEcall (s : State) : Result := trap .environmentCall none s

/-- EBREAK: a hand-off to the debugging environment (R321, R334). -/
def execEbreak (s : State) : Result := trap .breakpoint none s

end Sys2Proof.Machine
end

