-- ==== Sys2Proof/Machine/Fences.lean ====
section
/-! DEFINITION. FENCE and FENCE.I (spec/43_fence.md R260 to R264). -/

namespace Sys2Proof.Machine

/-- FENCE: no register, byte or CSR changes; the fence takes its place in the order in which the hart's
operations may be seen (R75, R260). -/
def execFence (pred succ : FenceSet) (s : State) : Result :=
  .next ((s.observe (.fence pred succ)).retire s.nextPc)

/-- FENCE.I: every later fetch sees the hart's earlier stores (R262). -/
def execFenceI (s : State) : Result :=
  .next ({ s with fetchView := FetchView.empty }.retire s.nextPc)

end Sys2Proof.Machine
end

