-- ==== Sys2Proof/Machine/IntegerImmediate.lean ====
section
/-! DEFINITION. LUI, AUIPC and the register-immediate instructions
(spec/40_integer_computational.md R150 to R161). -/

namespace Sys2Proof.Machine

/-- LUI (R160). -/
def execLui (rd : Reg) (imm20 : BitVec 20) (s : State) : Result :=
  writeResult rd (upperWord imm20) s

/-- AUIPC: the pc of the instruction itself is added (R161). -/
def execAuipc (rd : Reg) (imm20 : BitVec 20) (s : State) : Result :=
  writeResult rd (s.pc + upperWord imm20) s

/-- ADDI (R151). -/
def execAddi (rd rs1 : Reg) (imm : BitVec 12) (s : State) : Result :=
  writeResult rd (s.reg rs1 + immWord imm) s

/-- SLTI (R152). -/
def execSlti (rd rs1 : Reg) (imm : BitVec 12) (s : State) : Result :=
  writeResult rd (truthWord (lessSigned (s.reg rs1) (immWord imm))) s

/-- SLTIU: the immediate is sign-extended, then both compare as unsigned (R153). -/
def execSltiu (rd rs1 : Reg) (imm : BitVec 12) (s : State) : Result :=
  writeResult rd (truthWord (lessUnsigned (s.reg rs1) (immWord imm))) s

/-- XORI (R156). -/
def execXori (rd rs1 : Reg) (imm : BitVec 12) (s : State) : Result :=
  writeResult rd (s.reg rs1 ^^^ immWord imm) s

/-- ORI (R155). -/
def execOri (rd rs1 : Reg) (imm : BitVec 12) (s : State) : Result :=
  writeResult rd (s.reg rs1 ||| immWord imm) s

/-- ANDI (R154). -/
def execAndi (rd rs1 : Reg) (imm : BitVec 12) (s : State) : Result :=
  writeResult rd (s.reg rs1 &&& immWord imm) s

/-- SLLI (R157). -/
def execSlli (rd rs1 : Reg) (shamt : BitVec 5) (s : State) : Result :=
  writeResult rd (shiftLeft (s.reg rs1) shamt) s

/-- SRLI (R158). -/
def execSrli (rd rs1 : Reg) (shamt : BitVec 5) (s : State) : Result :=
  writeResult rd (shiftRightLogical (s.reg rs1) shamt) s

/-- SRAI (R159). -/
def execSrai (rd rs1 : Reg) (shamt : BitVec 5) (s : State) : Result :=
  writeResult rd (shiftRightArith (s.reg rs1) shamt) s

end Sys2Proof.Machine
end

