-- ==== Sys2Proof/Machine/IntegerRegister.lean ====
section
/-! DEFINITION. The register-register instructions (spec/40_integer_computational.md R162 to R171). -/

namespace Sys2Proof.Machine

/-- ADD (R162). -/
def execAdd (rd rs1 rs2 : Reg) (s : State) : Result :=
  writeResult rd (s.reg rs1 + s.reg rs2) s

/-- SUB (R163). -/
def execSub (rd rs1 rs2 : Reg) (s : State) : Result :=
  writeResult rd (s.reg rs1 - s.reg rs2) s

/-- SLL: the amount is the low five bits of x[rs2] (R169). -/
def execSll (rd rs1 rs2 : Reg) (s : State) : Result :=
  writeResult rd (shiftLeft (s.reg rs1) (shiftAmount (s.reg rs2))) s

/-- SLT (R164). -/
def execSlt (rd rs1 rs2 : Reg) (s : State) : Result :=
  writeResult rd (truthWord (lessSigned (s.reg rs1) (s.reg rs2))) s

/-- SLTU (R165). -/
def execSltu (rd rs1 rs2 : Reg) (s : State) : Result :=
  writeResult rd (truthWord (lessUnsigned (s.reg rs1) (s.reg rs2))) s

/-- XOR (R168). -/
def execXor (rd rs1 rs2 : Reg) (s : State) : Result :=
  writeResult rd (s.reg rs1 ^^^ s.reg rs2) s

/-- SRL (R170). -/
def execSrl (rd rs1 rs2 : Reg) (s : State) : Result :=
  writeResult rd (shiftRightLogical (s.reg rs1) (shiftAmount (s.reg rs2))) s

/-- SRA (R171). -/
def execSra (rd rs1 rs2 : Reg) (s : State) : Result :=
  writeResult rd (shiftRightArith (s.reg rs1) (shiftAmount (s.reg rs2))) s

/-- OR (R167). -/
def execOr (rd rs1 rs2 : Reg) (s : State) : Result :=
  writeResult rd (s.reg rs1 ||| s.reg rs2) s

/-- AND (R166). -/
def execAnd (rd rs1 rs2 : Reg) (s : State) : Result :=
  writeResult rd (s.reg rs1 &&& s.reg rs2) s

end Sys2Proof.Machine
end

