-- ==== Sys2Proof/Machine/LoadStore.lean ====
section
/-! DEFINITION. Loads and stores (spec/42_load_store.md R230 to R240). Data needs no alignment (R239). -/

namespace Sys2Proof.Machine

/-- LB: the byte sign-extended (R234). -/
def execLb (rd rs1 : Reg) (imm : BitVec 12) (s : State) : Result :=
  load rd rs1 imm 1 (fun v => (BitVec.ofNat 8 v).signExtend 32) s

/-- LH: the halfword sign-extended (R232). -/
def execLh (rd rs1 : Reg) (imm : BitVec 12) (s : State) : Result :=
  load rd rs1 imm 2 (fun v => (BitVec.ofNat 16 v).signExtend 32) s

/-- LW (R231). -/
def execLw (rd rs1 : Reg) (imm : BitVec 12) (s : State) : Result :=
  load rd rs1 imm 4 (fun v => BitVec.ofNat 32 v) s

/-- LBU: the byte zero-extended (R235). -/
def execLbu (rd rs1 : Reg) (imm : BitVec 12) (s : State) : Result :=
  load rd rs1 imm 1 (fun v => (BitVec.ofNat 8 v).setWidth 32) s

/-- LHU: the halfword zero-extended (R233). -/
def execLhu (rd rs1 : Reg) (imm : BitVec 12) (s : State) : Result :=
  load rd rs1 imm 2 (fun v => (BitVec.ofNat 16 v).setWidth 32) s

/-- SB: the low byte of x[rs2] (R238). -/
def execSb (rs2 rs1 : Reg) (imm : BitVec 12) (s : State) : Result :=
  store rs2 rs1 imm 1 s

/-- SH: the low halfword of x[rs2] (R237). -/
def execSh (rs2 rs1 : Reg) (imm : BitVec 12) (s : State) : Result :=
  store rs2 rs1 imm 2 s

/-- SW (R236). -/
def execSw (rs2 rs1 : Reg) (imm : BitVec 12) (s : State) : Result :=
  store rs2 rs1 imm 4 s

end Sys2Proof.Machine
end

