-- ==== Sys2Proof/Machine/Step.lean ====
section
/-! DEFINITION. One step of the machine (spec/00_scope.md R13): fetch, decode, execute, the order in which
R340 tests the exceptions. -/

namespace Sys2Proof.Machine

/-- One step. At a hand-off the environment is asked first (R351). -/
def step (s : State) : Host.Outcome State Fault Refusal :=
  match s.handoff with
  | some t => afterHandoff t s
  | none =>
    match fetch s with
    | .denied => trap .instructionAccessFault (some s.pc) s
    | .noValue a => .fault (.unwrittenByte a)
    | .ok (w, t) =>
      match decodeWord w with
      | .error _ => trap .illegalInstruction (some w) t
      | .ok i => exec i t

/-- The state with an instruction's bits stored where the next step fetches: the four bytes at the pc in
memory, seen by fetch, accessible, and the hart stepping. -/
def State.withFetchWord (s : State) (nbits w : Nat) : State := s.placeWord (w % 2 ^ nbits)

end Sys2Proof.Machine
end

