-- ==== Sys2Proof/Machine/Pseudo.lean ====
section
/-! DEFINITION. The assembler's pseudo-instructions, each another name of one of the 47
(spec/30_encoding.md R125; R172, R211, R290 to R292, R294). -/

namespace Sys2Proof.Pseudo

open Sys2Proof.Machine

/-- The address of a CSR (R33; G3, PRESUMED, log entry 15). -/
def csrAddress : Csr → BitVec 12
  | .cycle => 0xC00#12
  | .time => 0xC01#12
  | .instret => 0xC02#12
  | .cycleh => 0xC80#12
  | .timeh => 0xC81#12
  | .instreth => 0xC82#12

def nop : Instr := .addi 0#5 0#5 0#12
def mv (rd rs1 : Reg) : Instr := .addi rd rs1 0#12
def seqz (rd rs : Reg) : Instr := .sltiu rd rs 1#12
def not (rd rs : Reg) : Instr := .xori rd rs 0xFFF#12
def snez (rd rs : Reg) : Instr := .sltu rd 0#5 rs
def j (off : BitVec 21) : Instr := .jal 0#5 off
def bgt (rs rt : Reg) (off : BitVec 13) : Instr := .blt rt rs off
def bgtu (rs rt : Reg) (off : BitVec 13) : Instr := .bltu rt rs off
def ble (rs rt : Reg) (off : BitVec 13) : Instr := .bge rt rs off
def bleu (rs rt : Reg) (off : BitVec 13) : Instr := .bgeu rt rs off
def csrr (rd : Reg) (csr : BitVec 12) : Instr := .csrrs rd csr 0#5
def csrw (csr : BitVec 12) (rs1 : Reg) : Instr := .csrrw 0#5 csr rs1
def csrwi (csr : BitVec 12) (zimm : BitVec 5) : Instr := .csrrwi 0#5 csr zimm
def csrs (csr : BitVec 12) (rs1 : Reg) : Instr := .csrrs 0#5 csr rs1
def csrc (csr : BitVec 12) (rs1 : Reg) : Instr := .csrrc 0#5 csr rs1
def csrsi (csr : BitVec 12) (zimm : BitVec 5) : Instr := .csrrsi 0#5 csr zimm
def csrci (csr : BitVec 12) (zimm : BitVec 5) : Instr := .csrrci 0#5 csr zimm
def rdcycle (rd : Reg) : Instr := csrr rd (csrAddress .cycle)
def rdcycleh (rd : Reg) : Instr := csrr rd (csrAddress .cycleh)
def rdtime (rd : Reg) : Instr := csrr rd (csrAddress .time)
def rdtimeh (rd : Reg) : Instr := csrr rd (csrAddress .timeh)
def rdinstret (rd : Reg) : Instr := csrr rd (csrAddress .instret)
def rdinstreth (rd : Reg) : Instr := csrr rd (csrAddress .instreth)

end Sys2Proof.Pseudo
end

