-- ==== Sys2Proof/Safety.lean ====
section
/-! DEFINITION. The terms that claims about the machine are stated in: what a step completes, what it
leaves as it was, what a hand-off records, and the invariant of every step. -/

namespace Sys2Proof.Machine

/-! ### What an instruction leaves as it was -/

/-- The instruction completed: the next one is at `next`, instret counts one more modulo 2^64, and the hart
is as it was stepping or stopped (R13, R25, R32). -/
def Completed (next : Word) (s t : State) : Prop :=
  t.pc = next ∧ t.instret = s.instret + 1#64 ∧ t.handoff = s.handoff

/-- Every register but those of the list reads as before. -/
def SameRegs (rds : List Reg) (s t : State) : Prop := ∀ r : Reg, r ∉ rds → t.reg r = s.reg r

/-- Every byte of memory but those at the listed addresses reads as before. -/
def SameBytes (as : List Word) (s t : State) : Prop := ∀ a : Word, a ∉ as → t.mem.read a = s.mem.read a

/-- The counters that only a CSR read touches. -/
def SameTimers (s t : State) : Prop := t.cycle = s.cycle ∧ t.time = s.time

/-- The state an instruction touches only by an access, a fence, a device or an oracle. -/
def SameSurroundings (s t : State) : Prop :=
  t.fetchView = s.fetchView ∧ t.opLog = s.opLog ∧ t.platform = s.platform ∧ t.draws = s.draws

/-- Of everything but pc and instret, only `rd` may change. -/
def OnlyRegister (rd : Reg) (s t : State) : Prop :=
  SameRegs [rd] s t ∧ SameBytes [] s t ∧ SameTimers s t ∧ SameSurroundings s t

/-- Nothing but pc and instret changes. -/
def OnlyPc (s t : State) : Prop :=
  SameRegs [] s t ∧ SameBytes [] s t ∧ SameTimers s t ∧ SameSurroundings s t

/-- What x[rd] reads after `v` is written to it: x0 still reads 0 (R21). -/
def written (rd : Reg) (v : Word) : Word := if rd = 0#5 then 0#32 else v

/-- The instruction answers a next state in which rd reads `v` (or 0 for x0), the pc is at the next
instruction in sequence, instret counts one more, and nothing else is changed. -/
def WritesRegister (i : Instr) (rd : Reg) (v : Word) (s : State) : Prop :=
  ∃ t, exec i s = .next t ∧ t.reg rd = written rd v ∧ Completed (s.pc + 4#32) s t ∧ OnlyRegister rd s t

/-- The instruction answers a next state in which rd reads pc + 4 (or 0 for x0), the pc is at `target`,
instret counts one more, and nothing else is changed. -/
def JumpsTo (i : Instr) (rd : Reg) (target : Word) (s : State) : Prop :=
  ∃ t, exec i s = .next t ∧ t.reg rd = written rd (s.pc + 4#32) ∧ Completed target s t ∧ OnlyRegister rd s t

/-- The instruction answers a next state that differs only in the pc, now `next`, and in instret. -/
def GoesTo (i : Instr) (next : Word) (s : State) : Prop :=
  ∃ t, exec i s = .next t ∧ Completed next s t ∧ OnlyPc s t

/-- The instruction answers the hand-off with this cause and info, and nothing else is changed
(R338, R339). -/
def HandsOff (i : Instr) (cause : Cause) (info : Option Word) (s : State) : Prop :=
  exec i s = .next { s with handoff := some { cause := cause, epc := s.pc, info := info } }

/-- The rule of the six branches (R204): not taken, in sequence; taken to a multiple of 4, there; taken to
any other target, the hand-off. -/
def BranchRule (i : Instr) (cond : Prop) (target : Word) (s : State) : Prop :=
  (¬ cond → GoesTo i (s.pc + 4#32) s) ∧
  (cond → target.toNat % 4 = 0 → GoesTo i target s) ∧
  (cond → target.toNat % 4 ≠ 0 → HandsOff i .instructionAddressMisaligned (some target) s)

/-- The instruction answers a next state in which the counter that `counter` picks holds the oracle's
answer to this query, or its last answer where that is greater, and rd reads one half of it; the pc is at
the next instruction, instret counts one more, one oracle query is used, and nothing else is changed but
what `others` allows (R30, R31, R287). -/
def ReadsCounter (i : Instr) (rd : Reg) (counter : State → DWord) (oracle : Nat → DWord)
    (half : DWord → Word) (others : State → State → Prop) (s : State) : Prop :=
  ∃ t, exec i s = .next t ∧ (counter t).toNat = max (counter s).toNat (oracle s.draws).toNat ∧
    t.reg rd = written rd (half (counter t)) ∧
    Completed (s.pc + 4#32) s t ∧ SameRegs [rd] s t ∧ SameBytes [] s t ∧ others s t ∧
    t.fetchView = s.fetchView ∧ t.opLog = s.opLog ∧ t.platform = s.platform ∧ t.draws = s.draws + 1

/-- The four CSR instructions that read the CSR at `a` into rd and write nothing (R287). -/
def pureReads (rd : Reg) (a : BitVec 12) : List Instr :=
  [.csrrs rd a 0#5, .csrrc rd a 0#5, .csrrsi rd a 0#5, .csrrci rd a 0#5]

/-! ### Accesses -/

/-- Byte `k` of an access at `a` (R62, R66). -/
def byteAddr (a : Word) (k : Nat) : Word := a + BitVec.ofNat 32 k

/-- All `n` bytes at `a` are accessible for `kind`. -/
def Accessible (kind : AccessKind) (a : Word) (n : Nat) (s : State) : Prop :=
  ∀ k < n, s.platform.accessible kind (byteAddr a k) = true

/-- None of the `n` bytes at `a` is I/O. -/
def NotIO (a : Word) (n : Nat) (s : State) : Prop := ∀ k < n, s.platform.isIO (byteAddr a k) = false

/-- The class of a load from memory (R76). -/
def memoryRead : FenceSet := { i := false, o := false, r := true, w := false }

/-- The class of a load from a device (R76). -/
def deviceInput : FenceSet := { i := true, o := false, r := false, w := false }

/-- The class of a store to a device (R76). -/
def deviceOutput : FenceSet := { i := false, o := true, r := false, w := false }

/-- All `n` bytes at `a` are I/O. -/
def AllIO (a : Word) (n : Nat) (s : State) : Prop := ∀ k < n, s.platform.isIO (byteAddr a k) = true

/-- The class of a store to memory (R76). -/
def memoryWrite : FenceSet := { i := false, o := false, r := false, w := true }

/-- Some of the `n` bytes at `a` are I/O and some are not. -/
def PartlyIO (a : Word) (n : Nat) (s : State) : Prop :=
  (∃ k < n, s.platform.isIO (byteAddr a k) = true) ∧ ∃ k < n, s.platform.isIO (byteAddr a k) = false

/-- What byte `k` of a load at `a` gives: the device's answer, or memory's byte (R62, R72). -/
def GivesByte (a : Word) (k : Nat) (b : Byte) (s : State) : Prop :=
  (s.platform.isIO (byteAddr a k) = true → b = Config.deviceByte s.draws k) ∧
  (s.platform.isIO (byteAddr a k) = false → s.mem.read (byteAddr a k) = some b)

/-- The load answers a next state in which rd reads `v` (or 0 for x0), the pc is at the next instruction,
instret counts one more, `queries` oracle queries are used, the operation log names the access with
its classes, and nothing else is changed. -/
def LoadsAs (classes : FenceSet) (queries : Nat) (i : Instr) (rd : Reg) (v : Word) (a : Word)
    (bytes : List Byte) (s : State) : Prop :=
  ∃ t, exec i s = .next t ∧ t.reg rd = written rd v ∧ Completed (s.pc + 4#32) s t ∧
    SameRegs [rd] s t ∧ SameBytes [] s t ∧ SameTimers s t ∧ t.fetchView = s.fetchView ∧
    t.platform = s.platform ∧ t.draws = s.draws + queries ∧ t.opLog = .load classes a bytes :: s.opLog

/-- A load from memory alone. -/
abbrev LoadsFromMemory := LoadsAs memoryRead 0

/-- A load from a device alone. -/
abbrev LoadsFromDevice := LoadsAs deviceInput 1

/-- A load from a device and memory (R76). -/
abbrev LoadsFromBoth := LoadsAs { i := true, o := false, r := true, w := false } 1

/-- The store to a device answers a next state in which the pc is at the next instruction, instret counts
one more, the operation log names the device output, and nothing else is changed. -/
def StoresToDevice (i : Instr) (a : Word) (bytes : List Byte) (s : State) : Prop :=
  ∃ t, exec i s = .next t ∧ Completed (s.pc + 4#32) s t ∧ SameRegs [] s t ∧ SameBytes [] s t ∧
    SameTimers s t ∧ t.fetchView = s.fetchView ∧ t.platform = s.platform ∧ t.draws = s.draws ∧
    t.opLog = .store deviceOutput a bytes :: s.opLog

/-- After a store to the byte at `a` a fetch may see, beside the stored value, what it could see before and
what the byte held, and no other value (R39, R77). -/
def KeepsOlder (a : Word) (s t : State) : Prop :=
  ∀ o, o ∈ t.fetchView.older a ↔ o ∈ s.fetchView.older a ∨ o = s.mem.read a

/-- The store answers a next state in which the bytes at `a` are `bytes`, the pc is at the next
instruction, instret counts one more, the fetch view may still see what the bytes held, the operation
log names the access, and nothing else is changed. -/
def StoresToMemory (i : Instr) (a : Word) (bytes : List Byte) (s : State) : Prop :=
  ∃ t, exec i s = .next t ∧ Completed (s.pc + 4#32) s t ∧
    (∀ k < bytes.length, t.mem.read (byteAddr a k) = bytes[k]?) ∧
    SameBytes ((List.range bytes.length).map (byteAddr a)) s t ∧ SameRegs [] s t ∧ SameTimers s t ∧
    (∀ k < bytes.length, KeepsOlder (byteAddr a k) s t) ∧
    (∀ b, b ∉ (List.range bytes.length).map (byteAddr a) → t.fetchView.older b = s.fetchView.older b) ∧
    t.platform = s.platform ∧ t.draws = s.draws ∧ t.opLog = .store memoryWrite a bytes :: s.opLog

/-- The store over I/O bytes and memory bytes: those of memory change as in a store to memory, the others
go to the device, and the operation log names both classes (R72, R76). -/
def StoresToBoth (i : Instr) (a : Word) (bytes : List Byte) (s : State) : Prop :=
  ∃ t, exec i s = .next t ∧ Completed (s.pc + 4#32) s t ∧ SameRegs [] s t ∧ SameTimers s t ∧
    (∀ k < bytes.length, s.platform.isIO (byteAddr a k) = false →
      t.mem.read (byteAddr a k) = bytes[k]? ∧ KeepsOlder (byteAddr a k) s t) ∧
    (∀ b, (∀ k < bytes.length, s.platform.isIO (byteAddr a k) = false → b ≠ byteAddr a k) →
      t.mem.read b = s.mem.read b ∧ t.fetchView.older b = s.fetchView.older b) ∧
    t.platform = s.platform ∧ t.draws = s.draws ∧
    t.opLog = .store { i := false, o := true, r := false, w := true } a bytes :: s.opLog

/-! ### Fetch -/

/-- The word that memory holds at the pc, byte by byte (R65). -/
def HoldsWord (w : Word) (s : State) : Prop :=
  ∀ k < 4, s.mem.read (byteAddr s.pc k) = some (w.extractLsb' (8 * k) 8)

/-- Fetch at the pc reads memory and nothing else: the bytes are accessible, are not I/O, and the hart has
stored to none of them since its last FENCE.I (R69, R72, R77). -/
def PlainFetch (s : State) : Prop :=
  Accessible .fetch s.pc 4 s ∧ NotIO s.pc 4 s ∧ ∀ k < 4, s.fetchView.older (byteAddr s.pc k) = []

/-- What the fetch of byte `k` at the pc gives: a byte of I/O, what the device answers; a byte of memory,
what it holds or one of the values it held since the last FENCE.I, by the free choice where there are
several; none where the value taken is that the byte held nothing (R72, R77). -/
def FetchGives (s : State) (k : Nat) (v : Option Byte) : Prop :=
  let a := byteAddr s.pc k
  (s.platform.isIO a = true → v = some (Config.deviceByte s.draws k)) ∧
  (s.platform.isIO a = false → (s.mem.read a :: s.fetchView.older a)[
    Config.fetchChoice s.draws k % ((s.fetchView.older a).length + 1)]? = some v)

/-- The fetch at the pc gives the word, its lowest byte first (R65). -/
def FetchesWord (w : Word) (s : State) : Prop :=
  ∀ k < 4, FetchGives s k (some (w.extractLsb' (8 * k) 8))

/-- The fetch at the pc asks an oracle: some byte is I/O, or the hart has stored to it since its last
FENCE.I (R72, R77). -/
def DrawnFetch (s : State) : Prop :=
  ∃ k < 4, s.platform.isIO (byteAddr s.pc k) = true ∨ s.fetchView.older (byteAddr s.pc k) ≠ []

/-! ### Words that encode nothing -/

/-- The list of R119, field by field: the opcodes of R116 are the eleven that may stand, and under each
of them the function fields that encode nothing. -/
def EncodesNothing (w : Word) : Prop :=
  let op := w.extractLsb' 0 7
  let f3 := w.extractLsb' 12 3
  let f7 := w.extractLsb' 25 7
  (op ∉ [0x03#7, 0x0F#7, 0x13#7, 0x17#7, 0x23#7, 0x33#7, 0x37#7, 0x63#7, 0x67#7, 0x6F#7, 0x73#7]) ∨
  (op = 0x03#7 ∧ f3 ∈ [3#3, 6#3, 7#3]) ∨
  (op = 0x23#7 ∧ f3 ∈ [3#3, 4#3, 5#3, 6#3, 7#3]) ∨
  (op = 0x63#7 ∧ f3 ∈ [2#3, 3#3]) ∨
  (op = 0x67#7 ∧ f3 ≠ 0#3) ∨
  (op = 0x0F#7 ∧ f3 ∉ [0#3, 1#3]) ∨
  (op = 0x13#7 ∧ f3 = 1#3 ∧ f7 ≠ 0x00#7) ∨
  (op = 0x13#7 ∧ f3 = 5#3 ∧ f7 ∉ [0x00#7, 0x20#7]) ∨
  (op = 0x33#7 ∧ f7 ∉ [0x00#7, 0x20#7]) ∨
  (op = 0x33#7 ∧ f7 = 0x20#7 ∧ f3 ∉ [0#3, 5#3]) ∨
  (op = 0x73#7 ∧ f3 = 4#3) ∨
  (op = 0x73#7 ∧ f3 = 0#3 ∧ w ∉ [0x00000073#32, 0x00100073#32])

/-- The step at `s` runs the fetched word `w` in the state `t` that the fetch left: the instruction, or the
hand-off where the word encodes nothing (R13, R117, R119). -/
def RunsFetched (w : Word) (s t : State) : Prop :=
  (∀ i, decodeWord w = .ok i → step s = exec i t) ∧
  (EncodesNothing w → step s = .next { t with
    handoff := some { cause := .illegalInstruction, epc := s.pc, info := some w } })

/-! ### Hand-offs -/

/-- `i` is a jump, or a branch whose condition holds, and `target` the address it computes
(R201, R202, R204 to R210). -/
def GoesFor (i : Instr) (target : Word) (s : State) : Prop :=
  (∃ rd off, i = .jal rd off ∧ target = BitVec.ofInt 32 (s.pc.toInt + off.toInt)) ∨
  (∃ rd rs1 imm, i = .jalr rd rs1 imm ∧
    target.toNat = (BitVec.ofInt 32 ((s.reg rs1).toInt + imm.toInt)).toNat / 2 * 2) ∨
  ∃ rs1 rs2 off, target = BitVec.ofInt 32 (s.pc.toInt + off.toInt) ∧
    ((i = .beq rs1 rs2 off ∧ s.reg rs1 = s.reg rs2) ∨
     (i = .bne rs1 rs2 off ∧ s.reg rs1 ≠ s.reg rs2) ∨
     (i = .blt rs1 rs2 off ∧ (s.reg rs1).toInt < (s.reg rs2).toInt) ∨
     (i = .bge rs1 rs2 off ∧ (s.reg rs1).toInt ≥ (s.reg rs2).toInt) ∨
     (i = .bltu rs1 rs2 off ∧ (s.reg rs1).toNat < (s.reg rs2).toNat) ∨
     (i = .bgeu rs1 rs2 off ∧ (s.reg rs1).toNat ≥ (s.reg rs2).toNat))

/-- `i` is a load of the `n` bytes at `a` (R230 to R235). -/
def LoadsAt (i : Instr) (a : Word) (n : Nat) (s : State) : Prop :=
  ∃ rd rs1 imm, a = effectiveAddr rs1 imm s ∧
    ((n = 1 ∧ i ∈ [Instr.lb rd rs1 imm, .lbu rd rs1 imm]) ∨ (n = 2 ∧ i ∈ [Instr.lh rd rs1 imm, .lhu rd rs1 imm]) ∨
     (n = 4 ∧ i = .lw rd rs1 imm))

/-- `i` is a store to the `n` bytes at `a` (R230, R236 to R238). -/
def StoresAt (i : Instr) (a : Word) (n : Nat) (s : State) : Prop :=
  ∃ rs2 rs1 imm, a = effectiveAddr rs1 imm s ∧
    ((n = 1 ∧ i = .sb rs2 rs1 imm) ∨ (n = 2 ∧ i = .sh rs2 rs1 imm) ∨ (n = 4 ∧ i = .sw rs2 rs1 imm))

/-- `i` is a CSR instruction that writes, or that names an absent CSR (R34, R35, R287, R289). -/
def RefusedCsr (i : Instr) : Prop :=
  ∃ rd csr field, i ∈ [Instr.csrrw rd csr field, .csrrwi rd csr field] ∨
    (i ∈ [Instr.csrrs rd csr field, .csrrc rd csr field, .csrrsi rd csr field, .csrrci rd csr field] ∧
      (field ≠ 0#5 ∨ csr ∉ [0xC00#12, 0xC01#12, 0xC02#12, 0xC80#12, 0xC81#12, 0xC82#12]))

/-- Executing `i`, the instruction of the word `w`, raises this cause with this info: the third place of
R340, with the columns "raised by", "when" and "info recorded" of R330. -/
def Raises (i : Instr) (w : Word) (cause : Cause) (info : Option Word) (s : State) : Prop :=
  match cause with
  | .instructionAddressMisaligned => ∃ target, GoesFor i target s ∧ target.toNat % 4 ≠ 0 ∧ info = some target
  | .illegalInstruction => RefusedCsr i ∧ info = some w
  | .instructionAccessFault => False
  | .loadAccessFault => ∃ a n, LoadsAt i a n s ∧ ¬ Accessible .load a n s ∧ info = some a
  | .storeAccessFault => ∃ a n, StoresAt i a n s ∧ ¬ Accessible .store a n s ∧ info = some a
  | .environmentCall => i = .ecall ∧ info = none
  | .breakpoint => i = .ebreak ∧ info = none

/-- What a hand-off of the step at `s` records, in the order of R340: the denied fetch with the pc; else, of
the fetched word, that it encodes nothing, with the word; else what its instruction raises. The epc is
the pc of the instruction (R330, R338). -/
def Trap.Fits (trap : Trap) (s : State) : Prop :=
  trap.epc = s.pc ∧
  ((¬ Accessible .fetch s.pc 4 s ∧ trap.cause = .instructionAccessFault ∧ trap.info = some s.pc) ∨
   (Accessible .fetch s.pc 4 s ∧ ∃ w, FetchesWord w s ∧
    ((EncodesNothing w ∧ trap.cause = .illegalInstruction ∧ trap.info = some w) ∨
     ∃ i, decodeWord w = .ok i ∧ Raises i w trap.cause trap.info s)))

/-- The instructions that can raise each exception in execution (R330, R340). -/
def mayRaise (i : Instr) (c : Cause) : Bool :=
  match c with
  | .instructionAddressMisaligned =>
    decide (i.mnemonic ∈ ["JAL", "JALR", "BEQ", "BNE", "BLT", "BGE", "BLTU", "BGEU"])
  | .illegalInstruction =>
    decide (i.mnemonic ∈ ["CSRRW", "CSRRS", "CSRRC", "CSRRWI", "CSRRSI", "CSRRCI"])
  | .instructionAccessFault => false
  | .loadAccessFault => decide (i.mnemonic ∈ ["LB", "LH", "LW", "LBU", "LHU"])
  | .storeAccessFault => decide (i.mnemonic ∈ ["SB", "SH", "SW"])
  | .environmentCall => decide (i.mnemonic ∈ ["ECALL"])
  | .breakpoint => decide (i.mnemonic ∈ ["EBREAK"])

/-! ### Runs and the invariant -/

/-- `n` steps lead from `s` to `t`. -/
def StepsTo : Nat → State → State → Prop
  | 0, s, t => t = s
  | n + 1, s, t => ∃ u, step s = .next u ∧ StepsTo n u t


/-- What every step keeps: the pc is a multiple of 4 (R26), memory and the fetch view have their
canonical form, and a hart stopped at a hand-off stands at the instruction that raised it (R338). -/
def Inv (s : State) : Prop :=
  s.pc.toNat % 4 = 0 ∧ s.mem.wf = true ∧ s.fetchView.wf = true ∧ ∀ t, s.handoff = some t → t.epc = s.pc

end Sys2Proof.Machine
end

