-- ==== Sys2Proof/Certificates/Slice0/Obligations.lean ====
section
/-! DEFINITION. The statements for the provers. Each says in its docstring which rule of spec/ it
formalises; where it rests on a decision the spec marks as its own, or on a choice of the model, the
docstring names that. -/

open Sys2Proof Sys2Proof.Machine

/-! ### Encoding and decoding -/

/-- Decode and encode agree: no bit of an instruction is lost (R101 to R118; the encoder is the model's,
and the numeric values are the spec's general knowledge G1, log entry 14). -/
def Obligations.DecodeOfEncodeIsTheInstruction : Prop :=
  ∀ i : Instr, WellFormed i = true → decodeWord (encode i) = .ok i

/-- A decoded word is a well-formed instruction, and its encoding is the word again, but for MISC-MEM,
whose reserved fields are ignored (R117, R120; G1, log entry 14). -/
def Obligations.EncodeOfDecodeIsTheWord : Prop :=
  ∀ (w : Word) (i : Instr), decodeWord w = .ok i →
    WellFormed i = true ∧ (w.extractLsb' 0 7 ≠ 0x0F#7 → encode i = w)

/-- The rows of the opcode table fit disjoint sets of words (R117; G1, log entry 14). -/
def Obligations.OpcodeRowsAreDisjoint : Prop :=
  ∀ w : Word, ∀ a ∈ opcodeTable, ∀ b ∈ opcodeTable, a.fits w = true → b.fits w = true →
    a.mnemonic = b.mnemonic

/-- The words that decode to nothing are exactly those that R119 spells out (the spec's decision D4; the
numbers of its opcodes and function fields are general knowledge G1, log entry 14). -/
def Obligations.IllegalWordsAreExactlyTheListed : Prop :=
  ∀ w : Word, decodeWord w = .error (.illegalInstruction w) ↔ EncodesNothing w

/-- Every word that fits FENCE or FENCE.I under the mask 0x0000707F is that instruction, whatever its
reserved fields hold (R261, R263; the spec's decision D17, with G1 and G4, log entry 14). -/
def Obligations.ReservedFenceFieldsAreIgnored : Prop :=
  ∀ w : Word,
    (w &&& 0x0000707F#32 = 0x0000000F#32 → decodeWord w = .ok (.fence
      { i := w.getLsbD 27, o := w.getLsbD 26, r := w.getLsbD 25, w := w.getLsbD 24 }
      { i := w.getLsbD 23, o := w.getLsbD 22, r := w.getLsbD 21, w := w.getLsbD 20 })) ∧
    (w &&& 0x0000707F#32 = 0x0000100F#32 → decodeWord w = .ok .fenceI)

/-- Nine words that the spec writes out decode to the instructions they stand for: seven of
95_test_vectors.md, 0xFFF30293 of R151's example and 0x407302B3 of R163's. There is no FENCE among them
(general knowledge G1, log entry 14; the CSR address, G3, log entry 15). -/
def Obligations.SampleWordsDecodeAsListed : Prop :=
  decodeWord 0xFFF30293#32 = .ok (.addi 5#5 6#5 0xFFF#12) ∧
  decodeWord 0x407302B3#32 = .ok (.sub 5#5 6#5 7#5) ∧
  decodeWord 0xDEADC537#32 = .ok (.lui 10#5 0xDEADC#20) ∧
  decodeWord 0xFF9FF0EF#32 = .ok (.jal 1#5 (BitVec.ofInt 21 (-8))) ∧
  decodeWord 0xFE419AE3#32 = .ok (.bne 3#5 4#5 (BitVec.ofInt 13 (-12))) ∧
  decodeWord 0xFFC2A383#32 = .ok (.lw 7#5 5#5 0xFFC#12) ∧
  decodeWord 0xFE62AE23#32 = .ok (.sw 6#5 5#5 0xFFC#12) ∧
  decodeWord 0xC80021F3#32 = .ok (.csrrs 3#5 0xC80#12 0#5) ∧
  decodeWord 0x00100073#32 = .ok .ebreak

/-! ### The step -/

/-- A step runs the instruction that the word at the pc decodes to, and adds nothing around it, where the
fetch reads memory alone (R13, R65, R69). -/
def Obligations.StepRunsTheDecodedInstruction : Prop :=
  ∀ (s : State) (w : Word) (i : Instr), s.handoff = none → PlainFetch s → HoldsWord w s →
    decodeWord w = .ok i → step s = exec i s

/-- A fetched word that encodes nothing is handed off as IllegalInstruction with the word, and nothing
changes (R119, R330, R338; the spec's decisions D2 and D4; G1; log entries 1 and 14). -/
def Obligations.IllegalWordIsHandedOff : Prop :=
  ∀ (s : State) (w : Word), s.handoff = none → PlainFetch s → HoldsWord w s → EncodesNothing w →
    step s = .next { s with handoff := some { cause := .illegalInstruction, epc := s.pc, info := some w } }

/-- A fetch of a byte that is not accessible is handed off as InstructionAccessFault before anything else
is looked at (R69, R70, R340; the spec's decisions D2, D5 and D19; log entry 1). -/
def Obligations.DeniedFetchIsHandedOff : Prop :=
  ∀ s : State, s.handoff = none → ¬ Accessible .fetch s.pc 4 s →
    step s = .next { s with
      handoff := some { cause := .instructionAccessFault, epc := s.pc, info := some s.pc } }

/-- A fetch of which some byte is I/O or stale takes each byte from where it is: a device's byte from the
device, any other as memory holds it or held it since the last FENCE.I. Where all four have a value, the
word they make runs, or is handed off where it encodes nothing (decisions D2 and D4; G1; log entries 1
and 14), and one oracle query is used; else the step stops at the first byte without a value (R47, R65,
R72, R77; D18, D21; draws, device answers and that fault are the model's, log entries 6, 10 and 11). -/
def Obligations.StaleFetchReturnsStoredOrOlderBytes : Prop :=
  ∀ s : State, s.handoff = none → Accessible .fetch s.pc 4 s → DrawnFetch s →
    ∃ v : Nat → Option Byte, (∀ k < 4, FetchGives s k (v k)) ∧
      (∀ w : Word, (∀ k < 4, v k = some (w.extractLsb' (8 * k) 8)) →
        RunsFetched w s { s with draws := s.draws + 1 }) ∧
      ∀ k < 4, (∀ j < k, v j ≠ none) → v k = none → step s = .fault (.unwrittenByte (byteAddr s.pc k))

/-- A fetch of which all four bytes are I/O runs the word that the device answers, lowest byte first, or
hands it off where it encodes nothing (decisions D2 and D4; G1; log entries 1 and 14), and uses one
oracle query (R65, R72; decision D21; the device's answer is free, log entry 11). A fetch of which some
bytes are I/O is in StaleFetchReturnsStoredOrOlderBytes. -/
def Obligations.FetchFromDeviceRunsWhatItAnswers : Prop :=
  ∀ s : State, s.handoff = none → Accessible .fetch s.pc 4 s → AllIO s.pc 4 s →
    RunsFetched (Config.deviceByte s.draws 3 ++ Config.deviceByte s.draws 2 ++
      Config.deviceByte s.draws 1 ++ Config.deviceByte s.draws 0) s { s with draws := s.draws + 1 }

/-- A fetch that meets a byte of memory without a value, where none is stale, stops with the model's
fault at the first such byte (R47; the policy `fault` for memory is the model's choice, log entry 6). -/
def Obligations.FetchOfUnwrittenByteFaults : Prop :=
  ∀ (s : State) (k : Nat), s.handoff = none → PlainFetch s → k < 4 →
    (∀ j < k, s.mem.read (byteAddr s.pc j) ≠ none) → s.mem.read (byteAddr s.pc k) = none →
    step s = .fault (.unwrittenByte (byteAddr s.pc k))

/-- A step asked of a hart stopped at a hand-off does what the execution environment says: nothing, and
the run has ended, or the state it returns, with the counters' floors, the operation log and the platform
kept (R338, R351; the spec's decisions D2 and D20; log entry 2). -/
def Obligations.HandOffGoesToTheEnvironment : Prop :=
  ∀ (s : State) (trap : Trap), s.handoff = some trap →
    step s = match Config.eeiResume trap s with
      | none => .fault (.stopped trap)
      | some r => .next { s with
          regs := r.val.regs, pc := r.val.pc, instret := r.val.instret, mem := r.val.mem,
          fetchView := r.val.fetchView, handoff := none, draws := s.draws + 1 }

/-- A word placed by `withFetchWord` at any state is the instruction that the next step runs (log
entry 7: how a program comes to run is the model's). -/
def Obligations.PlacedWordIsRunNext : Prop :=
  ∀ (s : State) (w : Word) (i : Instr), decodeWord w = .ok i →
    step (s.withFetchWord 32 w.toNat) = exec i (s.withFetchWord 32 w.toNat)

/-! ### Reset and the invariant -/

/-- What the spec says of the reset state: x0 is 0, the pc is a multiple of 4, the fetch view is empty,
nothing is in flight, no byte is I/O, the hart is stepping (R43, R45, R47, R72; decisions D9 and D21; the
log and the platform are the model's form, log entries 8 and 13). That no byte of memory holds a value is
the model's choice for INIT_MEM, which the spec leaves open (log entries 6 and 7). -/
def Obligations.ResetStateIsAsSpecified : Prop :=
  State.reset.reg 0#5 = 0#32 ∧ State.reset.pc.toNat % 4 = 0 ∧ (∀ a, State.reset.mem.read a = none) ∧
  (∀ a, State.reset.fetchView.older a = []) ∧ State.reset.opLog = [] ∧ State.reset.handoff = none ∧
  ∀ a, State.reset.platform.isIO a = false

/-- The invariant holds at reset (R26, R45; decision D9). -/
def Obligations.ResetMeetsTheInvariant : Prop := Inv State.reset

/-- Every step keeps the invariant: the pc a multiple of 4, memory and fetch view canonical, a stopped hart
at the instruction that raised the exception (R26, R203, R338; log entries 1, 2 and 6). -/
def Obligations.EveryStepKeepsTheInvariant : Prop :=
  ∀ s t : State, Inv s → step s = .next t → Inv t

/-- Every step of a stepping hart retires one instruction, or hands off and changes nothing else but the
count of oracle queries, with the triple that R330 gives in the order of R340: the cause and the info of
the denied fetch, of the word that encodes nothing, or of the fetched instruction (R13, R32, R338, R339;
decisions D2, D3, D4, D5, D7, D15, D16, D19 and D24; G1, G3; log entries 1, 10, 11, 14 and 15). -/
def Obligations.EveryStepRetiresOrHandsOffPrecisely : Prop :=
  ∀ s t : State, s.handoff = none → step s = .next t →
    (t.handoff = none ∧ t.instret = s.instret + 1#64) ∨
    (∃ trap : Trap, trap.Fits s ∧ t = { s with handoff := some trap, draws := t.draws })

/-- Over any step the cycle and time counters do not run back (R287; decision D14; log entry 9). -/
def Obligations.CountersNeverRunBack : Prop :=
  ∀ s t : State, step s = .next t → s.cycle.toNat ≤ t.cycle.toNat ∧ s.time.toNat ≤ t.time.toNat

/-- Over any step the platform stays as it is (R9, R71; log entry 8). -/
def Obligations.PlatformNeverChanges : Prop :=
  ∀ s t : State, step s = .next t → t.platform = s.platform

/-- Only SB, SH and SW change a byte of memory (R37, R60). -/
def Obligations.OnlyStoresChangeMemory : Prop :=
  ∀ (i : Instr) (s t : State), i.mnemonic ∉ ["SB", "SH", "SW"] → exec i s = .next t → SameBytes [] s t

/-- An instruction raises in execution only the exception that R330 and R340 give it (decisions D2, D19; log
entry 1). -/
def Obligations.InstructionsRaiseOnlyTheirExceptions : Prop :=
  ∀ (i : Instr) (s t : State) (trap : Trap), s.handoff = none → exec i s = .next t →
    t.handoff = some trap → mayRaise i trap.cause = true

/-! ### Integer computational instructions -/

/-- ADDI adds the sign-extended immediate and keeps the low 32 bits (R151). -/
def Obligations.AddiAddsTheImmediate : Prop :=
  ∀ (s : State) (rd rs1 : Reg) (imm : BitVec 12),
    WritesRegister (.addi rd rs1 imm) rd (BitVec.ofInt 32 ((s.reg rs1).toInt + imm.toInt)) s

/-- SLTI compares as signed, SLTIU as unsigned after sign extension; the result is 1 or 0 (R152, R153). -/
def Obligations.ImmediateCompares : Prop :=
  ∀ (s : State) (rd rs1 : Reg) (imm : BitVec 12),
    WritesRegister (.slti rd rs1 imm) rd (if (s.reg rs1).toInt < imm.toInt then 1#32 else 0#32) s ∧
    WritesRegister (.sltiu rd rs1 imm) rd
      (if (s.reg rs1).toNat < (BitVec.ofInt 32 imm.toInt).toNat then 1#32 else 0#32) s

/-- ANDI, ORI and XORI act bit by bit on the sign-extended immediate (R154, R155, R156). -/
def Obligations.ImmediateLogic : Prop :=
  ∀ (s : State) (rd rs1 : Reg) (imm : BitVec 12),
    WritesRegister (.andi rd rs1 imm) rd (s.reg rs1 &&& BitVec.ofInt 32 imm.toInt) s ∧
    WritesRegister (.ori rd rs1 imm) rd (s.reg rs1 ||| BitVec.ofInt 32 imm.toInt) s ∧
    WritesRegister (.xori rd rs1 imm) rd (s.reg rs1 ^^^ BitVec.ofInt 32 imm.toInt) s

/-- SLLI multiplies by a power of two modulo 2^32, SRLI divides the natural number, SRAI the signed number
toward minus infinity (R157, R158, R159). -/
def Obligations.ImmediateShifts : Prop :=
  ∀ (s : State) (rd rs1 : Reg) (shamt : BitVec 5),
    WritesRegister (.slli rd rs1 shamt) rd (BitVec.ofNat 32 ((s.reg rs1).toNat * 2 ^ shamt.toNat)) s ∧
    WritesRegister (.srli rd rs1 shamt) rd (BitVec.ofNat 32 ((s.reg rs1).toNat / 2 ^ shamt.toNat)) s ∧
    WritesRegister (.srai rd rs1 shamt) rd (BitVec.ofInt 32 ((s.reg rs1).toInt / 2 ^ shamt.toNat)) s

/-- LUI puts the 20-bit field in bits 31:12, AUIPC adds that to the pc of the instruction (R160, R161). -/
def Obligations.UpperImmediates : Prop :=
  ∀ (s : State) (rd : Reg) (imm20 : BitVec 20),
    WritesRegister (.lui rd imm20) rd (BitVec.ofNat 32 (imm20.toNat * 4096)) s ∧
    WritesRegister (.auipc rd imm20) rd (BitVec.ofNat 32 (s.pc.toNat + imm20.toNat * 4096)) s

/-- ADD and SUB keep the low 32 bits of the sum and the difference (R162, R163). -/
def Obligations.RegisterSums : Prop :=
  ∀ (s : State) (rd rs1 rs2 : Reg),
    WritesRegister (.add rd rs1 rs2) rd (BitVec.ofInt 32 ((s.reg rs1).toInt + (s.reg rs2).toInt)) s ∧
    WritesRegister (.sub rd rs1 rs2) rd (BitVec.ofInt 32 ((s.reg rs1).toInt - (s.reg rs2).toInt)) s

/-- SLT compares as signed, SLTU as unsigned; the result is 1 or 0 (R164, R165). -/
def Obligations.RegisterCompares : Prop :=
  ∀ (s : State) (rd rs1 rs2 : Reg),
    WritesRegister (.slt rd rs1 rs2) rd
      (if (s.reg rs1).toInt < (s.reg rs2).toInt then 1#32 else 0#32) s ∧
    WritesRegister (.sltu rd rs1 rs2) rd
      (if (s.reg rs1).toNat < (s.reg rs2).toNat then 1#32 else 0#32) s

/-- AND, OR and XOR act bit by bit (R166, R167, R168). -/
def Obligations.RegisterLogic : Prop :=
  ∀ (s : State) (rd rs1 rs2 : Reg),
    WritesRegister (.and rd rs1 rs2) rd (s.reg rs1 &&& s.reg rs2) s ∧
    WritesRegister (.or rd rs1 rs2) rd (s.reg rs1 ||| s.reg rs2) s ∧
    WritesRegister (.xor rd rs1 rs2) rd (s.reg rs1 ^^^ s.reg rs2) s

/-- SLL, SRL and SRA shift by the low five bits of x[rs2] (R169, R170, R171). -/
def Obligations.RegisterShifts : Prop :=
  ∀ (s : State) (rd rs1 rs2 : Reg),
    WritesRegister (.sll rd rs1 rs2) rd
      (BitVec.ofNat 32 ((s.reg rs1).toNat * 2 ^ ((s.reg rs2).toNat % 32))) s ∧
    WritesRegister (.srl rd rs1 rs2) rd
      (BitVec.ofNat 32 ((s.reg rs1).toNat / 2 ^ ((s.reg rs2).toNat % 32))) s ∧
    WritesRegister (.sra rd rs1 rs2) rd
      (BitVec.ofInt 32 ((s.reg rs1).toInt / 2 ^ ((s.reg rs2).toNat % 32))) s

/-- NOP is the word 0x00000013 and changes nothing but the pc and instret (R172; the numeric word is
general knowledge G1, log entry 14). -/
def Obligations.NopOnlyAdvances : Prop :=
  decodeWord 0x00000013#32 = .ok Pseudo.nop ∧
  ∀ s : State, exec Pseudo.nop s = .next { s with pc := s.pc + 4#32, instret := s.instret + 1#64 }

/-- MV copies, SEQZ and SNEZ test for zero, NOT inverts every bit (R125, R151, R153, R156, R165). -/
def Obligations.PseudoInstructionResults : Prop :=
  ∀ (s : State) (rd rs : Reg),
    WritesRegister (Pseudo.mv rd rs) rd (s.reg rs) s ∧
    WritesRegister (Pseudo.seqz rd rs) rd (if s.reg rs = 0#32 then 1#32 else 0#32) s ∧
    WritesRegister (Pseudo.snez rd rs) rd (if s.reg rs = 0#32 then 0#32 else 1#32) s ∧
    WritesRegister (Pseudo.not rd rs) rd (~~~ s.reg rs) s

/-! ### Control transfer -/

/-- JAL goes to pc plus the signed offset modulo 2^32 and links pc + 4; a target that is no multiple of 4 is
handed off with rd unwritten (R201, R203; the spec's decisions D7 and D16; log entry 1). -/
def Obligations.JalJumpsOrHandsOff : Prop :=
  ∀ (s : State) (rd : Reg) (off : BitVec 21),
    ((BitVec.ofInt 32 (s.pc.toInt + off.toInt)).toNat % 4 = 0 →
      JumpsTo (.jal rd off) rd (BitVec.ofInt 32 (s.pc.toInt + off.toInt)) s) ∧
    ((BitVec.ofInt 32 (s.pc.toInt + off.toInt)).toNat % 4 ≠ 0 →
      HandsOff (.jal rd off) .instructionAddressMisaligned
        (some (BitVec.ofInt 32 (s.pc.toInt + off.toInt))) s)

/-- JALR goes to x[rs1] plus the signed immediate modulo 2^32 with bit 0 cleared, x[rs1] read before rd is
written, and links pc + 4; only bit 1 of the target can make it hand off (R202, R203; decisions D7 and
D16; log entry 1). -/
def Obligations.JalrJumpsOrHandsOff : Prop :=
  ∀ (s : State) (rd rs1 : Reg) (imm : BitVec 12) (target : Word),
    target.toNat = (BitVec.ofInt 32 ((s.reg rs1).toInt + imm.toInt)).toNat / 2 * 2 →
    (target.getLsbD 1 = false → JumpsTo (.jalr rd rs1 imm) rd target s) ∧
    (target.getLsbD 1 = true →
      HandsOff (.jalr rd rs1 imm) .instructionAddressMisaligned (some target) s)

/-- The six branches compare all 32 bits, signed or unsigned as named, and follow R204 (R205 to R210; the
addition modulo 2^32 and the hand-off of a misaligned target are the spec's decisions D7 and D16; log
entry 1). -/
def Obligations.BranchesFollowTheirConditions : Prop :=
  ∀ (s : State) (rs1 rs2 : Reg) (off : BitVec 13) (target : Word),
    target = BitVec.ofInt 32 (s.pc.toInt + off.toInt) →
    BranchRule (.beq rs1 rs2 off) (s.reg rs1 = s.reg rs2) target s ∧
    BranchRule (.bne rs1 rs2 off) (s.reg rs1 ≠ s.reg rs2) target s ∧
    BranchRule (.blt rs1 rs2 off) ((s.reg rs1).toInt < (s.reg rs2).toInt) target s ∧
    BranchRule (.bge rs1 rs2 off) ((s.reg rs1).toInt ≥ (s.reg rs2).toInt) target s ∧
    BranchRule (.bltu rs1 rs2 off) ((s.reg rs1).toNat < (s.reg rs2).toNat) target s ∧
    BranchRule (.bgeu rs1 rs2 off) ((s.reg rs1).toNat ≥ (s.reg rs2).toNat) target s

/-- BGT, BGTU, BLE and BLEU are the branches with the operands exchanged (R125, R211; decision D7 for
the addition, D16 and log entry 1 for the misaligned target). -/
def Obligations.SwappedBranches : Prop :=
  ∀ (s : State) (rs rt : Reg) (off : BitVec 13) (target : Word),
    target = BitVec.ofInt 32 (s.pc.toInt + off.toInt) →
    BranchRule (Pseudo.bgt rs rt off) ((s.reg rs).toInt > (s.reg rt).toInt) target s ∧
    BranchRule (Pseudo.ble rs rt off) ((s.reg rs).toInt ≤ (s.reg rt).toInt) target s ∧
    BranchRule (Pseudo.bgtu rs rt off) ((s.reg rs).toNat > (s.reg rt).toNat) target s ∧
    BranchRule (Pseudo.bleu rs rt off) ((s.reg rs).toNat ≤ (s.reg rt).toNat) target s

/-! ### Loads and stores -/

/-- A load from memory puts the little-endian bytes at the effective address in rd, sign- or zero-extended,
at any alignment and across the top of the address space; beside rd only the pc, instret and the operation
log change (R61, R62, R66, R230 to R235, R239; the spec's decisions D6 and D7; the log is the model's
form of R41, log entry 13). -/
def Obligations.LoadsReadMemory : Prop :=
  ∀ (s : State) (rd rs1 : Reg) (imm : BitVec 12) (a : Word) (b0 b1 b2 b3 : Byte),
    a = effectiveAddr rs1 imm s →
    (Accessible .load a 1 s → NotIO a 1 s → s.mem.read (byteAddr a 0) = some b0 →
      LoadsFromMemory (.lb rd rs1 imm) rd (BitVec.ofInt 32 b0.toInt) a [b0] s ∧
      LoadsFromMemory (.lbu rd rs1 imm) rd (BitVec.ofNat 32 b0.toNat) a [b0] s) ∧
    (Accessible .load a 2 s → NotIO a 2 s → s.mem.read (byteAddr a 0) = some b0 →
      s.mem.read (byteAddr a 1) = some b1 →
      LoadsFromMemory (.lh rd rs1 imm) rd (BitVec.ofInt 32 (b1 ++ b0).toInt) a [b0, b1] s ∧
      LoadsFromMemory (.lhu rd rs1 imm) rd (BitVec.ofNat 32 (b1 ++ b0).toNat) a [b0, b1] s) ∧
    (Accessible .load a 4 s → NotIO a 4 s → s.mem.read (byteAddr a 0) = some b0 →
      s.mem.read (byteAddr a 1) = some b1 → s.mem.read (byteAddr a 2) = some b2 →
      s.mem.read (byteAddr a 3) = some b3 →
      LoadsFromMemory (.lw rd rs1 imm) rd (b3 ++ b2 ++ b1 ++ b0) a [b0, b1, b2, b3] s)

/-- A load that touches a byte not accessible for load is handed off, with rd unwritten (R70, R231 to R235,
R333; the spec's decisions D2, D3 and D5; log entry 1). -/
def Obligations.DeniedLoadsAreHandedOff : Prop :=
  ∀ (s : State) (rd rs1 : Reg) (imm : BitVec 12) (a : Word), a = effectiveAddr rs1 imm s →
    (¬ Accessible .load a 1 s → HandsOff (.lb rd rs1 imm) .loadAccessFault (some a) s ∧
      HandsOff (.lbu rd rs1 imm) .loadAccessFault (some a) s) ∧
    (¬ Accessible .load a 2 s → HandsOff (.lh rd rs1 imm) .loadAccessFault (some a) s ∧
      HandsOff (.lhu rd rs1 imm) .loadAccessFault (some a) s) ∧
    (¬ Accessible .load a 4 s → HandsOff (.lw rd rs1 imm) .loadAccessFault (some a) s)

/-- A load from I/O bytes puts what the device answers in rd and leaves memory alone; the answer is a free
value, and the operation log gains a device input (R72, R76; the spec's decision D21; log entry 11 for the
answer, 13 for the log). -/
def Obligations.DeviceLoadsReadTheDevice : Prop :=
  ∀ (s : State) (rd rs1 : Reg) (imm : BitVec 12) (a : Word) (b0 b1 b2 b3 : Byte),
    a = effectiveAddr rs1 imm s → b0 = Config.deviceByte s.draws 0 → b1 = Config.deviceByte s.draws 1 →
    b2 = Config.deviceByte s.draws 2 → b3 = Config.deviceByte s.draws 3 →
    (Accessible .load a 1 s → AllIO a 1 s →
      LoadsFromDevice (.lb rd rs1 imm) rd (BitVec.ofInt 32 b0.toInt) a [b0] s ∧
      LoadsFromDevice (.lbu rd rs1 imm) rd (BitVec.ofNat 32 b0.toNat) a [b0] s) ∧
    (Accessible .load a 2 s → AllIO a 2 s →
      LoadsFromDevice (.lh rd rs1 imm) rd (BitVec.ofInt 32 (b1 ++ b0).toInt) a [b0, b1] s ∧
      LoadsFromDevice (.lhu rd rs1 imm) rd (BitVec.ofNat 32 (b1 ++ b0).toNat) a [b0, b1] s) ∧
    (Accessible .load a 4 s → AllIO a 4 s →
      LoadsFromDevice (.lw rd rs1 imm) rd (b3 ++ b2 ++ b1 ++ b0) a [b0, b1, b2, b3] s)

/-- A store to memory writes the low bytes of x[rs2], the lowest first, at the effective address and
nowhere else, at any alignment and across the top of the address space; a fetch may then also see what
the bytes held and no other new value, and the operation log gains the store (R39, R61, R63, R66, R77,
R230, R236 to R239; the spec's decisions D6, D7 and D18; the log is the model's form of R41, log entry
13). -/
def Obligations.StoresWriteMemory : Prop :=
  ∀ (s : State) (rs2 rs1 : Reg) (imm : BitVec 12) (a : Word), a = effectiveAddr rs1 imm s →
    (Accessible .store a 1 s → NotIO a 1 s →
      StoresToMemory (.sb rs2 rs1 imm) a [(s.reg rs2).extractLsb' 0 8] s) ∧
    (Accessible .store a 2 s → NotIO a 2 s →
      StoresToMemory (.sh rs2 rs1 imm) a [(s.reg rs2).extractLsb' 0 8, (s.reg rs2).extractLsb' 8 8] s) ∧
    (Accessible .store a 4 s → NotIO a 4 s →
      StoresToMemory (.sw rs2 rs1 imm) a [(s.reg rs2).extractLsb' 0 8, (s.reg rs2).extractLsb' 8 8,
        (s.reg rs2).extractLsb' 16 8, (s.reg rs2).extractLsb' 24 8] s)

/-- A store that touches a byte not accessible for store is handed off with no byte written, not even an
accessible one (R63, R70, R236 to R238, R339; the spec's decisions D2, D3 and D5; log entry 1). -/
def Obligations.DeniedStoresAreHandedOff : Prop :=
  ∀ (s : State) (rs2 rs1 : Reg) (imm : BitVec 12) (a : Word), a = effectiveAddr rs1 imm s →
    (¬ Accessible .store a 1 s → HandsOff (.sb rs2 rs1 imm) .storeAccessFault (some a) s) ∧
    (¬ Accessible .store a 2 s → HandsOff (.sh rs2 rs1 imm) .storeAccessFault (some a) s) ∧
    (¬ Accessible .store a 4 s → HandsOff (.sw rs2 rs1 imm) .storeAccessFault (some a) s)

/-- A store to I/O bytes is an output to the device, seen in the operation log, and leaves memory alone
(R72, R76; the spec's decision D21; log entries 11 and 13). -/
def Obligations.DeviceStoresGoToTheDevice : Prop :=
  ∀ (s : State) (rs2 rs1 : Reg) (imm : BitVec 12) (a : Word), a = effectiveAddr rs1 imm s →
    (Accessible .store a 1 s → AllIO a 1 s →
      StoresToDevice (.sb rs2 rs1 imm) a [(s.reg rs2).extractLsb' 0 8] s) ∧
    (Accessible .store a 2 s → AllIO a 2 s →
      StoresToDevice (.sh rs2 rs1 imm) a [(s.reg rs2).extractLsb' 0 8, (s.reg rs2).extractLsb' 8 8] s) ∧
    (Accessible .store a 4 s → AllIO a 4 s →
      StoresToDevice (.sw rs2 rs1 imm) a [(s.reg rs2).extractLsb' 0 8, (s.reg rs2).extractLsb' 8 8,
        (s.reg rs2).extractLsb' 16 8, (s.reg rs2).extractLsb' 24 8] s)

/-- A load over I/O bytes and memory bytes that hold values takes each byte from where it is, and the
operation log gains a load of both classes (R62, R72, R76; decision D21; the device's answer is free, log
entry 11, the log is the model's form of R41, log entry 13). -/
def Obligations.LoadsOverBothGoByteByByte : Prop :=
  ∀ (s : State) (rd rs1 : Reg) (imm : BitVec 12) (a : Word) (b0 b1 b2 b3 : Byte),
    a = effectiveAddr rs1 imm s →
    (Accessible .load a 2 s → PartlyIO a 2 s → GivesByte a 0 b0 s → GivesByte a 1 b1 s →
      LoadsFromBoth (.lh rd rs1 imm) rd (BitVec.ofInt 32 (b1 ++ b0).toInt) a [b0, b1] s ∧
      LoadsFromBoth (.lhu rd rs1 imm) rd (BitVec.ofNat 32 (b1 ++ b0).toNat) a [b0, b1] s) ∧
    (Accessible .load a 4 s → PartlyIO a 4 s → GivesByte a 0 b0 s → GivesByte a 1 b1 s →
      GivesByte a 2 b2 s → GivesByte a 3 b3 s →
      LoadsFromBoth (.lw rd rs1 imm) rd (b3 ++ b2 ++ b1 ++ b0) a [b0, b1, b2, b3] s)

/-- A store over I/O bytes and memory bytes sends each byte where it belongs; of a memory byte a fetch may
then also see what it held and no other new value, and the operation log gains a store of both classes
(R39, R63, R72, R76, R77; the spec's decisions D18 and D21; log entries 11 and 13). -/
def Obligations.StoresOverBothGoByteByByte : Prop :=
  ∀ (s : State) (rs2 rs1 : Reg) (imm : BitVec 12) (a : Word), a = effectiveAddr rs1 imm s →
    (Accessible .store a 2 s → PartlyIO a 2 s →
      StoresToBoth (.sh rs2 rs1 imm) a [(s.reg rs2).extractLsb' 0 8, (s.reg rs2).extractLsb' 8 8] s) ∧
    (Accessible .store a 4 s → PartlyIO a 4 s →
      StoresToBoth (.sw rs2 rs1 imm) a [(s.reg rs2).extractLsb' 0 8, (s.reg rs2).extractLsb' 8 8,
        (s.reg rs2).extractLsb' 16 8, (s.reg rs2).extractLsb' 24 8] s)

/-- A load of accessible bytes stops with the model's fault at the first byte of memory that holds no
value, whether the bytes below it are written memory or I/O (R47; the policy `fault` for memory is the
model's choice, log entry 6; I/O bytes, decision D21, log entry 11). -/
def Obligations.LoadOfUnwrittenByteFaults : Prop :=
  ∀ (s : State) (rd rs1 : Reg) (imm : BitVec 12) (a : Word) (k : Nat), a = effectiveAddr rs1 imm s →
    (∀ j < k, s.platform.isIO (byteAddr a j) = true ∨ s.mem.read (byteAddr a j) ≠ none) →
    s.platform.isIO (byteAddr a k) = false → s.mem.read (byteAddr a k) = none →
    (k < 1 → Accessible .load a 1 s →
      exec (.lb rd rs1 imm) s = .fault (.unwrittenByte (byteAddr a k)) ∧
      exec (.lbu rd rs1 imm) s = .fault (.unwrittenByte (byteAddr a k))) ∧
    (k < 2 → Accessible .load a 2 s →
      exec (.lh rd rs1 imm) s = .fault (.unwrittenByte (byteAddr a k)) ∧
      exec (.lhu rd rs1 imm) s = .fault (.unwrittenByte (byteAddr a k))) ∧
    (k < 4 → Accessible .load a 4 s →
      exec (.lw rd rs1 imm) s = .fault (.unwrittenByte (byteAddr a k)))

/-- The hart sees its own store: after SW, LW of the same bytes gives the stored word, and LHU of its upper
half gives bits 31:16 (R64, R73; where the bytes wrap, the spec's decision D7). -/
def Obligations.LoadAfterStoreSeesTheStore : Prop :=
  ∀ (s : State) (rs2 rs1 rd rb : Reg) (imm imm2 : BitVec 12) (a : Word), a = effectiveAddr rs1 imm s →
    Accessible .store a 4 s → Accessible .load a 4 s → NotIO a 4 s →
    effectiveAddr rb imm2 s = byteAddr a 2 →
    ∃ t u v, exec (.sw rs2 rs1 imm) s = .next t ∧
      exec (.lw rd rs1 imm) t = .next u ∧ u.reg rd = written rd (s.reg rs2) ∧
      exec (.lhu rd rb imm2) t = .next v ∧
      v.reg rd = written rd (BitVec.ofNat 32 ((s.reg rs2).toNat / 65536))

/-! ### FENCE and FENCE.I -/

/-- FENCE changes nothing but the pc, instret and the order of the hart's operations, where it takes its
place (R75, R260; the log is the model's form of that order, log entry 13). -/
def Obligations.FenceJoinsTheOrder : Prop :=
  ∀ (s : State) (pred succ : FenceSet), exec (.fence pred succ) s = .next { s with
    pc := s.pc + 4#32, instret := s.instret + 1#64, opLog := .fence pred succ :: s.opLog }

/-- What a FENCE promises: every operation before it of a class in its predecessor set must be seen before
every operation after it of a class in its successor set. First, of any log that continues the one the
FENCE leaves; then, that every run from there continues it, so that no operation is lost (R41, R75, R260;
the log and the order over it are the model's form, log entry 13; a resumption keeps the log, log entry
2). -/
def Obligations.FenceOrdersOperationsAroundIt : Prop :=
  ∀ (s t : State) (pred succ : FenceSet), exec (.fence pred succ) s = .next t →
    (∀ (after : List MemOp) (x y : MemOp) (earlier later : Nat),
      s.opLog[earlier]? = some x → x.classes.meets pred = true →
      after[later]? = some y → y.classes.meets succ = true →
      mustPrecede (after ++ t.opLog) (after.length + 1 + earlier) later) ∧
    ∀ (n : Nat) (u : State), StepsTo n t u → ∃ after, u.opLog = after ++ t.opLog

/-- A FENCE whose predecessor or successor set is empty orders nothing (R121, R260 corner case b; the log
and the order over it are the model's form, log entry 13). -/
def Obligations.EmptyFencesOrderNothing : Prop :=
  ∀ (log : List MemOp) (earlier later : Nat),
    (∀ (pred succ : FenceSet), .fence pred succ ∈ log →
      pred = { i := false, o := false, r := false, w := false } ∨
      succ = { i := false, o := false, r := false, w := false }) →
    ¬ mustPrecede log earlier later

/-- FENCE.I changes nothing but the pc, instret and the hidden fetch view, which it empties: every later
fetch sees the stores before it (R262). -/
def Obligations.FenceIEmptiesTheFetchView : Prop :=
  ∀ s : State, ∃ t, exec .fenceI s = .next t ∧
    t = { s with pc := s.pc + 4#32, instret := s.instret + 1#64, fetchView := t.fetchView } ∧
    ∀ a, t.fetchView.older a = []

/-- A word stored by SW two instructions ahead is the one that runs there once FENCE.I has executed
between (R77, R262, R384). -/
def Obligations.StoredInstructionRunsAfterFenceI : Prop :=
  ∀ (s : State) (rs2 rs1 : Reg) (imm : BitVec 12) (i : Instr), s.handoff = none →
    effectiveAddr rs1 imm s = s.pc + 8#32 → Accessible .store (s.pc + 8#32) 4 s →
    Accessible .fetch (s.pc + 8#32) 4 s → NotIO (s.pc + 8#32) 4 s → decodeWord (s.reg rs2) = .ok i →
    ∃ t u, exec (.sw rs2 rs1 imm) s = .next t ∧ exec .fenceI t = .next u ∧ step u = exec i u

/-! ### CSRs and counters -/

/-- A CSR instruction that does not write reads instret or instreth as it is before it retires (R287, R288,
R292; the addresses are general knowledge G3, log entry 15). -/
def Obligations.InstretReadsTheCountBefore : Prop :=
  ∀ (s : State) (rd : Reg),
    (∀ i ∈ pureReads rd 0xC02#12, WritesRegister i rd (BitVec.ofNat 32 s.instret.toNat) s) ∧
    (∀ i ∈ pureReads rd 0xC82#12, WritesRegister i rd (BitVec.ofNat 32 (s.instret.toNat / 2 ^ 32)) s)

/-- A CSR instruction that does not write reads a half of cycle or time, which this read sets to the
oracle's answer, or keeps at its last one where that is greater (R30, R31, R287, R290, R291; decision D14;
G3, log entries 9 and 15). -/
def Obligations.CounterReadsAreMonotoneDraws : Prop :=
  ∀ (s : State) (rd : Reg),
    (∀ i ∈ pureReads rd 0xC00#12, ReadsCounter i rd State.cycle Config.cycleDraw
      (fun v => BitVec.ofNat 32 v.toNat) (fun s t => t.time = s.time) s) ∧
    (∀ i ∈ pureReads rd 0xC80#12, ReadsCounter i rd State.cycle Config.cycleDraw
      (fun v => BitVec.ofNat 32 (v.toNat / 2 ^ 32)) (fun s t => t.time = s.time) s) ∧
    (∀ i ∈ pureReads rd 0xC01#12, ReadsCounter i rd State.time Config.timeDraw
      (fun v => BitVec.ofNat 32 v.toNat) (fun s t => t.cycle = s.cycle) s) ∧
    (∀ i ∈ pureReads rd 0xC81#12, ReadsCounter i rd State.time Config.timeDraw
      (fun v => BitVec.ofNat 32 (v.toNat / 2 ^ 32)) (fun s t => t.cycle = s.cycle) s)

/-- A CSR instruction that writes, in the sense of R287, is handed off as IllegalInstruction with its word:
CSRRW and CSRRWI always, which is their whole effect here, the others unless their field is 0 (R34, R287,
R289; decision D2; the word is by G1; log entries 1 and 14). -/
def Obligations.CsrWritesAreHandedOff : Prop :=
  ∀ (s : State) (rd : Reg) (csr : BitVec 12) (field : BitVec 5),
    (∀ i ∈ [Instr.csrrw rd csr field, .csrrwi rd csr field],
      HandsOff i .illegalInstruction (some (encode i)) s) ∧
    (field ≠ 0#5 → ∀ i ∈ [Instr.csrrs rd csr field, .csrrc rd csr field, .csrrsi rd csr field,
      .csrrci rd csr field], HandsOff i .illegalInstruction (some (encode i)) s)

/-- A CSR instruction that names one of the 4090 addresses without a CSR is handed off as
IllegalInstruction, whether it would read or write (R35, R289; the spec's decisions D2 and D15; the
addresses are general knowledge G3, the word is by G1; log entries 1, 14 and 15). -/
def Obligations.AbsentCsrsAreHandedOff : Prop :=
  ∀ (s : State) (rd : Reg) (csr : BitVec 12) (field : BitVec 5),
    csr ∉ [0xC00#12, 0xC01#12, 0xC02#12, 0xC80#12, 0xC81#12, 0xC82#12] →
    ∀ i ∈ [Instr.csrrw rd csr field, .csrrs rd csr field, .csrrc rd csr field, .csrrwi rd csr field,
      .csrrsi rd csr field, .csrrci rd csr field], HandsOff i .illegalInstruction (some (encode i)) s

/-- Two reads of instret with nothing between them give n and n + 1, modulo 2^32 (R288; the address is
general knowledge G3, log entry 15). -/
def Obligations.ConsecutiveInstretReadsDifferByOne : Prop :=
  ∀ (s : State) (r q : Reg), r ≠ 0#5 → q ≠ 0#5 → r ≠ q →
    ∃ t u, exec (Pseudo.rdinstret r) s = .next t ∧ exec (Pseudo.rdinstret q) t = .next u ∧
      u.reg q = u.reg r + 1#32

/-- The high, low, high reading: where the two high halves agree, they and the low half are the value the
64-bit counter held at the low read (R293; instret counts the reads themselves; decision D14; G3, log
entries 9 and 15). -/
def Obligations.HighLowHighReadsAreConsistent : Prop :=
  ∀ (s : State) (h l g : Reg), h ≠ 0#5 → l ≠ 0#5 → g ≠ 0#5 → h ≠ l → h ≠ g → l ≠ g →
    (∃ t u v, exec (Pseudo.rdcycleh h) s = .next t ∧ exec (Pseudo.rdcycle l) t = .next u ∧
      exec (Pseudo.rdcycleh g) u = .next v ∧ (v.reg h = v.reg g → u.cycle = v.reg h ++ v.reg l)) ∧
    (∃ t u v, exec (Pseudo.rdtimeh h) s = .next t ∧ exec (Pseudo.rdtime l) t = .next u ∧
      exec (Pseudo.rdtimeh g) u = .next v ∧ (v.reg h = v.reg g → u.time = v.reg h ++ v.reg l)) ∧
    (∃ t u v, exec (Pseudo.rdinstreth h) s = .next t ∧ exec (Pseudo.rdinstret l) t = .next u ∧
      exec (Pseudo.rdinstreth g) u = .next v ∧ (v.reg h = v.reg g → t.instret = v.reg h ++ v.reg l))

/-- Over any step of a stepping hart that retires, instret counts exactly one more, modulo 2^64, and over a
hand-off not at all (R32; decision D24). -/
def Obligations.InstretCountsRetiredSteps : Prop :=
  ∀ s t : State, s.handoff = none → step s = .next t →
    t.instret.toNat = (s.instret.toNat + if t.handoff = none then 1 else 0) % 2 ^ 64

/-! ### ECALL and EBREAK -/

/-- ECALL and EBREAK hand off with no info, the pc not advanced and instret not incremented (R320, R321;
decisions D2 and D13; log entry 1). -/
def Obligations.EcallAndEbreakHandOff : Prop :=
  ∀ s : State, HandsOff .ecall .environmentCall none s ∧ HandsOff .ebreak .breakpoint none s
end

