-- ==== Sys2Proof/Laws/State.lean ====
section
/-! SUPPORT. The small lemmas of State: one for each field and each update, and what the register
operations read and write. -/

namespace Sys2Proof.Machine

/-! ### Retirement -/

@[simp] theorem State.retire_regs (s : State) (next : Word) : (s.retire next).regs = s.regs := rfl
@[simp] theorem State.retire_pc (s : State) (next : Word) : (s.retire next).pc = next := rfl
@[simp] theorem State.retire_instret (s : State) (next : Word) : (s.retire next).instret = s.instret + 1#64 := rfl
@[simp] theorem State.retire_cycle (s : State) (next : Word) : (s.retire next).cycle = s.cycle := rfl
@[simp] theorem State.retire_time (s : State) (next : Word) : (s.retire next).time = s.time := rfl
@[simp] theorem State.retire_mem (s : State) (next : Word) : (s.retire next).mem = s.mem := rfl
@[simp] theorem State.retire_fetchView (s : State) (next : Word) : (s.retire next).fetchView = s.fetchView := rfl
@[simp] theorem State.retire_opLog (s : State) (next : Word) : (s.retire next).opLog = s.opLog := rfl
@[simp] theorem State.retire_handoff (s : State) (next : Word) : (s.retire next).handoff = s.handoff := rfl
@[simp] theorem State.retire_platform (s : State) (next : Word) : (s.retire next).platform = s.platform := rfl
@[simp] theorem State.retire_draws (s : State) (next : Word) : (s.retire next).draws = s.draws := rfl

/-! ### Taking an exception -/

@[simp] theorem State.raise_regs (s : State) (c : Cause) (info : Option Word) : (s.raise c info).regs = s.regs := rfl
@[simp] theorem State.raise_pc (s : State) (c : Cause) (info : Option Word) : (s.raise c info).pc = s.pc := rfl
@[simp] theorem State.raise_instret (s : State) (c : Cause) (info : Option Word) : (s.raise c info).instret = s.instret := rfl
@[simp] theorem State.raise_cycle (s : State) (c : Cause) (info : Option Word) : (s.raise c info).cycle = s.cycle := rfl
@[simp] theorem State.raise_time (s : State) (c : Cause) (info : Option Word) : (s.raise c info).time = s.time := rfl
@[simp] theorem State.raise_mem (s : State) (c : Cause) (info : Option Word) : (s.raise c info).mem = s.mem := rfl
@[simp] theorem State.raise_fetchView (s : State) (c : Cause) (info : Option Word) : (s.raise c info).fetchView = s.fetchView := rfl
@[simp] theorem State.raise_opLog (s : State) (c : Cause) (info : Option Word) : (s.raise c info).opLog = s.opLog := rfl
@[simp] theorem State.raise_handoff (s : State) (c : Cause) (info : Option Word) : (s.raise c info).handoff = some { cause := c, epc := s.pc, info := info } := rfl
@[simp] theorem State.raise_platform (s : State) (c : Cause) (info : Option Word) : (s.raise c info).platform = s.platform := rfl
@[simp] theorem State.raise_draws (s : State) (c : Cause) (info : Option Word) : (s.raise c info).draws = s.draws := rfl

/-! ### Going on after a hand-off -/

@[simp] theorem State.resume_regs (s : State) (r : Resumption) : (s.resume r).regs = r.regs := rfl
@[simp] theorem State.resume_pc (s : State) (r : Resumption) : (s.resume r).pc = r.pc := rfl
@[simp] theorem State.resume_instret (s : State) (r : Resumption) : (s.resume r).instret = r.instret := rfl
@[simp] theorem State.resume_cycle (s : State) (r : Resumption) : (s.resume r).cycle = s.cycle := rfl
@[simp] theorem State.resume_time (s : State) (r : Resumption) : (s.resume r).time = s.time := rfl
@[simp] theorem State.resume_mem (s : State) (r : Resumption) : (s.resume r).mem = r.mem := rfl
@[simp] theorem State.resume_fetchView (s : State) (r : Resumption) : (s.resume r).fetchView = r.fetchView := rfl
@[simp] theorem State.resume_opLog (s : State) (r : Resumption) : (s.resume r).opLog = s.opLog := rfl
@[simp] theorem State.resume_handoff (s : State) (r : Resumption) : (s.resume r).handoff = none := rfl
@[simp] theorem State.resume_platform (s : State) (r : Resumption) : (s.resume r).platform = s.platform := rfl
@[simp] theorem State.resume_draws (s : State) (r : Resumption) : (s.resume r).draws = s.draws + 1 := rfl

/-! ### The operation log -/

@[simp] theorem State.observe_regs (s : State) (op : MemOp) : (s.observe op).regs = s.regs := rfl
@[simp] theorem State.observe_pc (s : State) (op : MemOp) : (s.observe op).pc = s.pc := rfl
@[simp] theorem State.observe_instret (s : State) (op : MemOp) : (s.observe op).instret = s.instret := rfl
@[simp] theorem State.observe_cycle (s : State) (op : MemOp) : (s.observe op).cycle = s.cycle := rfl
@[simp] theorem State.observe_time (s : State) (op : MemOp) : (s.observe op).time = s.time := rfl
@[simp] theorem State.observe_mem (s : State) (op : MemOp) : (s.observe op).mem = s.mem := rfl
@[simp] theorem State.observe_fetchView (s : State) (op : MemOp) : (s.observe op).fetchView = s.fetchView := rfl
@[simp] theorem State.observe_opLog (s : State) (op : MemOp) : (s.observe op).opLog = op :: s.opLog := rfl
@[simp] theorem State.observe_handoff (s : State) (op : MemOp) : (s.observe op).handoff = s.handoff := rfl
@[simp] theorem State.observe_platform (s : State) (op : MemOp) : (s.observe op).platform = s.platform := rfl
@[simp] theorem State.observe_draws (s : State) (op : MemOp) : (s.observe op).draws = s.draws := rfl

/-! ### Counter reads -/

@[simp] theorem State.drawCycle_regs (s : State)  : (s.drawCycle).regs = s.regs := rfl
@[simp] theorem State.drawCycle_pc (s : State)  : (s.drawCycle).pc = s.pc := rfl
@[simp] theorem State.drawCycle_instret (s : State)  : (s.drawCycle).instret = s.instret := rfl
@[simp] theorem State.drawCycle_cycle (s : State)  : (s.drawCycle).cycle = drawn s.cycle (Config.cycleDraw s.draws) := rfl
@[simp] theorem State.drawCycle_time (s : State)  : (s.drawCycle).time = s.time := rfl
@[simp] theorem State.drawCycle_mem (s : State)  : (s.drawCycle).mem = s.mem := rfl
@[simp] theorem State.drawCycle_fetchView (s : State)  : (s.drawCycle).fetchView = s.fetchView := rfl
@[simp] theorem State.drawCycle_opLog (s : State)  : (s.drawCycle).opLog = s.opLog := rfl
@[simp] theorem State.drawCycle_handoff (s : State)  : (s.drawCycle).handoff = s.handoff := rfl
@[simp] theorem State.drawCycle_platform (s : State)  : (s.drawCycle).platform = s.platform := rfl
@[simp] theorem State.drawCycle_draws (s : State)  : (s.drawCycle).draws = s.draws + 1 := rfl

@[simp] theorem State.drawTime_regs (s : State)  : (s.drawTime).regs = s.regs := rfl
@[simp] theorem State.drawTime_pc (s : State)  : (s.drawTime).pc = s.pc := rfl
@[simp] theorem State.drawTime_instret (s : State)  : (s.drawTime).instret = s.instret := rfl
@[simp] theorem State.drawTime_cycle (s : State)  : (s.drawTime).cycle = s.cycle := rfl
@[simp] theorem State.drawTime_time (s : State)  : (s.drawTime).time = drawn s.time (Config.timeDraw s.draws) := rfl
@[simp] theorem State.drawTime_mem (s : State)  : (s.drawTime).mem = s.mem := rfl
@[simp] theorem State.drawTime_fetchView (s : State)  : (s.drawTime).fetchView = s.fetchView := rfl
@[simp] theorem State.drawTime_opLog (s : State)  : (s.drawTime).opLog = s.opLog := rfl
@[simp] theorem State.drawTime_handoff (s : State)  : (s.drawTime).handoff = s.handoff := rfl
@[simp] theorem State.drawTime_platform (s : State)  : (s.drawTime).platform = s.platform := rfl
@[simp] theorem State.drawTime_draws (s : State)  : (s.drawTime).draws = s.draws + 1 := rfl

/-! ### Register writes -/

@[simp] theorem State.setReg_pc (s : State) (r : Reg) (v : Word) : (s.setReg r v).pc = s.pc := by unfold State.setReg; split <;> rfl
@[simp] theorem State.setReg_instret (s : State) (r : Reg) (v : Word) : (s.setReg r v).instret = s.instret := by unfold State.setReg; split <;> rfl
@[simp] theorem State.setReg_cycle (s : State) (r : Reg) (v : Word) : (s.setReg r v).cycle = s.cycle := by unfold State.setReg; split <;> rfl
@[simp] theorem State.setReg_time (s : State) (r : Reg) (v : Word) : (s.setReg r v).time = s.time := by unfold State.setReg; split <;> rfl
@[simp] theorem State.setReg_mem (s : State) (r : Reg) (v : Word) : (s.setReg r v).mem = s.mem := by unfold State.setReg; split <;> rfl
@[simp] theorem State.setReg_fetchView (s : State) (r : Reg) (v : Word) : (s.setReg r v).fetchView = s.fetchView := by unfold State.setReg; split <;> rfl
@[simp] theorem State.setReg_opLog (s : State) (r : Reg) (v : Word) : (s.setReg r v).opLog = s.opLog := by unfold State.setReg; split <;> rfl
@[simp] theorem State.setReg_handoff (s : State) (r : Reg) (v : Word) : (s.setReg r v).handoff = s.handoff := by unfold State.setReg; split <;> rfl
@[simp] theorem State.setReg_platform (s : State) (r : Reg) (v : Word) : (s.setReg r v).platform = s.platform := by unfold State.setReg; split <;> rfl
@[simp] theorem State.setReg_draws (s : State) (r : Reg) (v : Word) : (s.setReg r v).draws = s.draws := by unfold State.setReg; split <;> rfl

/-! ### Oracle queries -/

@[simp] theorem State.countDraw_regs (s : State) (d : Bool) : (s.countDraw d).regs = s.regs := by unfold State.countDraw; split <;> rfl
@[simp] theorem State.countDraw_pc (s : State) (d : Bool) : (s.countDraw d).pc = s.pc := by unfold State.countDraw; split <;> rfl
@[simp] theorem State.countDraw_instret (s : State) (d : Bool) : (s.countDraw d).instret = s.instret := by unfold State.countDraw; split <;> rfl
@[simp] theorem State.countDraw_cycle (s : State) (d : Bool) : (s.countDraw d).cycle = s.cycle := by unfold State.countDraw; split <;> rfl
@[simp] theorem State.countDraw_time (s : State) (d : Bool) : (s.countDraw d).time = s.time := by unfold State.countDraw; split <;> rfl
@[simp] theorem State.countDraw_mem (s : State) (d : Bool) : (s.countDraw d).mem = s.mem := by unfold State.countDraw; split <;> rfl
@[simp] theorem State.countDraw_fetchView (s : State) (d : Bool) : (s.countDraw d).fetchView = s.fetchView := by unfold State.countDraw; split <;> rfl
@[simp] theorem State.countDraw_opLog (s : State) (d : Bool) : (s.countDraw d).opLog = s.opLog := by unfold State.countDraw; split <;> rfl
@[simp] theorem State.countDraw_handoff (s : State) (d : Bool) : (s.countDraw d).handoff = s.handoff := by unfold State.countDraw; split <;> rfl
@[simp] theorem State.countDraw_platform (s : State) (d : Bool) : (s.countDraw d).platform = s.platform := by unfold State.countDraw; split <;> rfl

/-! ### One byte of a store -/

@[simp] theorem State.storeByte_regs (s : State) (a : Word) (b : Byte) : (s.storeByte a b).regs = s.regs := by unfold State.storeByte; split <;> rfl
@[simp] theorem State.storeByte_pc (s : State) (a : Word) (b : Byte) : (s.storeByte a b).pc = s.pc := by unfold State.storeByte; split <;> rfl
@[simp] theorem State.storeByte_instret (s : State) (a : Word) (b : Byte) : (s.storeByte a b).instret = s.instret := by unfold State.storeByte; split <;> rfl
@[simp] theorem State.storeByte_cycle (s : State) (a : Word) (b : Byte) : (s.storeByte a b).cycle = s.cycle := by unfold State.storeByte; split <;> rfl
@[simp] theorem State.storeByte_time (s : State) (a : Word) (b : Byte) : (s.storeByte a b).time = s.time := by unfold State.storeByte; split <;> rfl
@[simp] theorem State.storeByte_opLog (s : State) (a : Word) (b : Byte) : (s.storeByte a b).opLog = s.opLog := by unfold State.storeByte; split <;> rfl
@[simp] theorem State.storeByte_handoff (s : State) (a : Word) (b : Byte) : (s.storeByte a b).handoff = s.handoff := by unfold State.storeByte; split <;> rfl
@[simp] theorem State.storeByte_platform (s : State) (a : Word) (b : Byte) : (s.storeByte a b).platform = s.platform := by unfold State.storeByte; split <;> rfl
@[simp] theorem State.storeByte_draws (s : State) (a : Word) (b : Byte) : (s.storeByte a b).draws = s.draws := by unfold State.storeByte; split <;> rfl

/-! ### Registers -/

@[simp] theorem State.reg_zero (s : State) : s.reg 0#5 = 0#32 := rfl

/-- A state's registers read alike when their storage is alike. -/
theorem State.reg_congr {s t : State} (h : t.regs = s.regs) (r : Reg) : t.reg r = s.reg r := by
  simp only [State.reg, h]

@[simp] theorem State.retire_reg (s : State) (next : Word) (r : Reg) : (s.retire next).reg r = s.reg r := rfl
@[simp] theorem State.raise_reg (s : State) (c : Cause) (info : Option Word) (r : Reg) :
    (s.raise c info).reg r = s.reg r := rfl
@[simp] theorem State.observe_reg (s : State) (op : MemOp) (r : Reg) : (s.observe op).reg r = s.reg r := rfl
@[simp] theorem State.drawCycle_reg (s : State) (r : Reg) : s.drawCycle.reg r = s.reg r := rfl
@[simp] theorem State.drawTime_reg (s : State) (r : Reg) : s.drawTime.reg r = s.reg r := rfl
@[simp] theorem State.countDraw_reg (s : State) (d : Bool) (r : Reg) : (s.countDraw d).reg r = s.reg r :=
  State.reg_congr (by simp) r
@[simp] theorem State.storeByte_reg (s : State) (a : Word) (b : Byte) (r : Reg) :
    (s.storeByte a b).reg r = s.reg r :=
  State.reg_congr (by simp) r

/-- Register numbers other than 0 are told apart by their places in the storage. -/
theorem regIndex_ne {q r : Reg} (hq : q ≠ 0#5) (hr : r ≠ 0#5) (h : q ≠ r) : q.toNat - 1 ≠ r.toNat - 1 := by
  intro e
  apply h
  apply BitVec.eq_of_toNat_eq
  have hq' : q.toNat ≠ 0 := fun z => hq (BitVec.eq_of_toNat_eq (by simpa using z))
  have hr' : r.toNat ≠ 0 := fun z => hr (BitVec.eq_of_toNat_eq (by simpa using z))
  omega

/-- Reading the register just written: the value, or 0 for x0 (R21). -/
@[simp] theorem State.reg_setReg_same (s : State) (r : Reg) (v : Word) : (s.setReg r v).reg r = written r v := by
  by_cases h : r = 0#5
  · subst h; simp [State.setReg, written]
  · simp [State.setReg, State.reg, written, h]

/-- Reading another register than the one written (R22). -/
theorem State.reg_setReg_ne (s : State) (r : Reg) (v : Word) {q : Reg} (h : q ≠ r) :
    (s.setReg r v).reg q = s.reg q := by
  by_cases hr : r = 0#5
  · simp [State.setReg, hr]
  · by_cases hq : q = 0#5
    · simp [State.reg, hq]
    · have := regIndex_ne hr hq (Ne.symm h)
      simp [State.setReg, State.reg, hr, hq, Vector.getElem_set_ne, this]

/-- A write to x0 changes nothing (R21). -/
@[simp] theorem State.setReg_zero (s : State) (v : Word) : s.setReg 0#5 v = s := by simp [State.setReg]

end Sys2Proof.Machine
end

