-- ==== Sys2Proof/Laws/Memory.lean ====
section
/-! SUPPORT. Memory and the fetch view: reading after writing, and the canonical form that every
operation keeps. -/

namespace Sys2Proof.Machine

/-! ### Sorted association lists -/

@[simp] theorem assocFind_assocSet_same {α : Type} (a : Nat) (v : α) (l : List (Nat × α)) :
    assocFind a (assocSet a v l) = some v := by
  induction l with
  | nil => simp [assocSet, assocFind]
  | cons e rest ih =>
    obtain ⟨k, w⟩ := e
    simp only [assocSet]
    split
    · simp [assocFind]
    · split
      · simp [assocFind]
      · next h => simp [assocFind, Ne.symm h, ih]

theorem assocFind_assocSet_ne {α : Type} {a b : Nat} (v : α) (h : b ≠ a) (l : List (Nat × α)) :
    assocFind b (assocSet a v l) = assocFind b l := by
  induction l with
  | nil => simp [assocSet, assocFind, Ne.symm h]
  | cons e rest ih =>
    obtain ⟨k, w⟩ := e
    simp only [assocSet]
    split
    · simp [assocFind, Ne.symm h]
    · split
      · next e => subst e; simp [assocFind, Ne.symm h]
      · simp only [assocFind, ih]

theorem assocRising_mono {α : Type} {lo lo' : Nat} (h : lo' ≤ lo) (l : List (Nat × α))
    (hr : assocRising lo l = true) : assocRising lo' l = true := by
  cases l with
  | nil => rfl
  | cons e rest =>
    simp only [assocRising, Bool.and_eq_true, decide_eq_true_eq] at hr ⊢
    exact ⟨⟨by omega, hr.1.2⟩, hr.2⟩

/-- Listing a value keeps the keys rising. -/
theorem assocRising_assocSet {α : Type} {a : Nat} (v : α) (ha : a < 2 ^ 32) (l : List (Nat × α)) (lo : Nat)
    (hlo : lo ≤ a) (hr : assocRising lo l = true) : assocRising lo (assocSet a v l) = true := by
  induction l generalizing lo with
  | nil => simpa [assocSet, assocRising, hlo] using ha
  | cons e rest ih =>
    obtain ⟨k, w⟩ := e
    simp only [assocRising, Bool.and_eq_true, decide_eq_true_eq] at hr
    simp only [assocSet]
    split
    · next hlt =>
      simp only [assocRising, Bool.and_eq_true, decide_eq_true_eq]
      exact ⟨⟨hlo, ha⟩, ⟨by omega, hr.1.2⟩, hr.2⟩
    · split
      · next e =>
        subst e
        simp only [assocRising, Bool.and_eq_true, decide_eq_true_eq]
        exact ⟨⟨hlo, ha⟩, hr.2⟩
      · simp only [assocRising, Bool.and_eq_true, decide_eq_true_eq]
        exact ⟨hr.1, ih (k + 1) (by omega) hr.2⟩

/-- Every entry of a list after a listing was there before, or is the listed one. -/
theorem mem_assocSet {α : Type} {a : Nat} {v : α} {l : List (Nat × α)} {e : Nat × α}
    (h : e ∈ assocSet a v l) : e ∈ l ∨ e = (a, v) := by
  induction l with
  | nil => exact Or.inr (by simpa [assocSet] using h)
  | cons x rest ih =>
    obtain ⟨k, w⟩ := x
    simp only [assocSet] at h
    split at h
    · rcases List.mem_cons.mp h with h | h
      · exact Or.inr h
      · exact Or.inl h
    · split at h
      · rcases List.mem_cons.mp h with h | h
        · exact Or.inr h
        · exact Or.inl (List.mem_cons_of_mem _ h)
      · rcases List.mem_cons.mp h with h | h
        · exact Or.inl (h ▸ List.mem_cons_self ..)
        · exact (ih h).imp (List.mem_cons_of_mem _) id

/-- Leaving entries out keeps the keys rising. -/
theorem assocRising_filter {α : Type} (p : Nat × α → Bool) (l : List (Nat × α)) (lo : Nat)
    (hr : assocRising lo l = true) : assocRising lo (l.filter p) = true := by
  induction l generalizing lo with
  | nil => rfl
  | cons e rest ih =>
    obtain ⟨k, w⟩ := e
    simp only [assocRising, Bool.and_eq_true, decide_eq_true_eq] at hr
    simp only [List.filter_cons]
    split
    · simp only [assocRising, Bool.and_eq_true, decide_eq_true_eq]
      exact ⟨hr.1, ih _ hr.2⟩
    · exact assocRising_mono (by omega) _ (ih (k + 1) hr.2)

theorem assocFind_filter_ne {α : Type} {a b : Nat} (h : b ≠ a) (l : List (Nat × α)) :
    assocFind b (l.filter (fun e => e.1 != a)) = assocFind b l := by
  induction l with
  | nil => rfl
  | cons e rest ih =>
    obtain ⟨k, w⟩ := e
    by_cases hk : k = a
    · subst hk
      simp [assocFind, Ne.symm h, ih]
    · simp only [List.filter_cons, bne_iff_ne, ne_eq, hk, not_false_eq_true, if_true, assocFind, ih]

theorem assocFind_filter_same {α : Type} (a : Nat) (l : List (Nat × α)) :
    assocFind a (l.filter (fun e => e.1 != a)) = none := by
  induction l with
  | nil => rfl
  | cons e rest ih =>
    obtain ⟨k, w⟩ := e
    by_cases hk : k = a
    · simp [hk, ih]
    · simp [hk, assocFind, ih]

/-! ### Memory -/

@[simp] theorem Memory.read_write_same (m : Memory) (a : Word) (b : Byte) : (m.write a b).read a = some b :=
  assocFind_assocSet_same ..

theorem Memory.read_write_ne (m : Memory) (a : Word) (b : Byte) {c : Word} (h : c ≠ a) :
    (m.write a b).read c = m.read c :=
  assocFind_assocSet_ne _ (fun e => h (BitVec.eq_of_toNat_eq e)) _

/-- A write keeps the canonical form. -/
theorem Memory.wf_write {m : Memory} (h : m.wf = true) (a : Word) (b : Byte) : (m.write a b).wf = true :=
  assocRising_assocSet b a.isLt m.cells 0 (Nat.zero_le _) h

/-- The memory of the reset state has the canonical form. -/
theorem Memory.wf_reset : State.reset.mem.wf = true := rfl

/-! ### The fetch view -/

@[simp] theorem FetchView.older_empty (a : Word) : FetchView.empty.older a = [] := rfl
@[simp] theorem FetchView.wf_empty : FetchView.empty.wf = true := rfl

/-- The earlier values of a stored byte: those before, and what it held (R39). -/
theorem FetchView.mem_older_record (v : FetchView) (a : Word) (old o : Option Byte) :
    o ∈ (v.record a old).older a ↔ o ∈ v.older a ∨ o = old := by
  unfold FetchView.record
  rw [FetchView.older]
  simp only [assocFind_assocSet_same, Option.getD_some]
  split
  · next h => exact ⟨.inl, fun e => e.elim id (· ▸ h)⟩
  · rw [List.mem_cons, or_comm]

theorem FetchView.older_record_ne (v : FetchView) (a : Word) (old : Option Byte) {b : Word} (h : b ≠ a) :
    (v.record a old).older b = v.older b := by
  have hn : b.toNat ≠ a.toNat := fun e => h (BitVec.eq_of_toNat_eq e)
  unfold FetchView.record FetchView.older
  simp only [assocFind_assocSet_ne _ hn]

/-- Keeping what a byte held keeps the canonical form. -/
theorem FetchView.wf_record {v : FetchView} (h : v.wf = true) (a : Word) (old : Option Byte) :
    (v.record a old).wf = true := by
  simp only [FetchView.wf, Bool.and_eq_true, List.all_eq_true] at h ⊢
  refine ⟨assocRising_assocSet _ a.isLt _ 0 (Nat.zero_le _) h.1, fun e he => ?_⟩
  rcases mem_assocSet he with he | he
  · exact h.2 e he
  · subst he
    show (!(if old ∈ v.older a then v.older a else old :: v.older a).isEmpty) = true
    split
    · next hm => simp [List.ne_nil_of_mem hm]
    · simp

@[simp] theorem FetchView.older_forget_same (v : FetchView) (a : Word) : (v.forget a).older a = [] := by
  simp [FetchView.older, FetchView.forget, assocFind_filter_same]

theorem FetchView.older_forget_ne (v : FetchView) (a : Word) {b : Word} (h : b ≠ a) :
    (v.forget a).older b = v.older b := by
  have hn : b.toNat ≠ a.toNat := fun e => h (BitVec.eq_of_toNat_eq e)
  simp only [FetchView.older, FetchView.forget, assocFind_filter_ne hn]

/-- Forgetting a byte keeps the canonical form. -/
theorem FetchView.wf_forget {v : FetchView} (h : v.wf = true) (a : Word) : (v.forget a).wf = true := by
  simp only [FetchView.wf, Bool.and_eq_true, List.all_eq_true] at h ⊢
  exact ⟨assocRising_filter _ _ 0 h.1, fun e he => h.2 e (List.mem_filter.mp he).1⟩

end Sys2Proof.Machine
end

