-- ==== Sys2Proof/Laws/Access.lean ====
section
/-! SUPPORT. The accesses: consecutive bytes, what a read gathers, what the bytes of a store change and
leave, and what a placed word changes. -/

namespace Sys2Proof.Machine

/-! ### Consecutive byte addresses (R62, R66) -/

theorem byteAddrs_eq (a : Word) (n : Nat) : byteAddrs a n = (List.range n).map (byteAddr a) := rfl

@[simp] theorem byteAddrs_length (a : Word) (n : Nat) : (byteAddrs a n).length = n := by simp [byteAddrs]

@[simp] theorem byteAddrs_getElem (a : Word) (n k : Nat) (h : k < (byteAddrs a n).length) :
    (byteAddrs a n)[k] = byteAddr a k := by simp [byteAddrs, byteAddr]

theorem mem_byteAddrs {a b : Word} {n : Nat} : b ∈ byteAddrs a n ↔ ∃ k < n, byteAddr a k = b := by
  simp [byteAddrs_eq]

/-- Offsets below 2^32 from one address give different addresses. -/
theorem byteAddr_inj {a : Word} {j k : Nat} (hj : j < 2 ^ 32) (hk : k < 2 ^ 32)
    (h : byteAddr a j = byteAddr a k) : j = k := by
  have h' : BitVec.ofNat 32 j = BitVec.ofNat 32 k := by
    simpa [byteAddr] using h
  have := congrArg BitVec.toNat h'
  rwa [BitVec.toNat_ofNat, BitVec.toNat_ofNat, Nat.mod_eq_of_lt hj, Nat.mod_eq_of_lt hk] at this

/-- The bytes of an access are different bytes. -/
theorem byteAddrs_nodup (a : Word) {n : Nat} (h : n ≤ 2 ^ 32) : (byteAddrs a n).Nodup := by
  rw [byteAddrs_eq]
  refine (List.nodup_map_iff_inj_on List.nodup_range).mpr fun j hj k hk e => ?_
  rw [List.mem_range] at hj hk
  exact byteAddr_inj (by omega) (by omega) e

theorem all_byteAddrs {a : Word} {n : Nat} (p : Word → Bool) :
    (byteAddrs a n).all p = true ↔ ∀ k < n, p (byteAddr a k) = true := by
  simp [byteAddrs_eq]

theorem any_byteAddrs_false {a : Word} {n : Nat} (p : Word → Bool) :
    (byteAddrs a n).any p = false ↔ ∀ k < n, p (byteAddr a k) = false := by
  simp [byteAddrs_eq]

/-! ### Little-endian bytes (R61) -/

@[simp] theorem leBytes_length (n v : Nat) : (leBytes n v).length = n := by
  induction n generalizing v with
  | zero => rfl
  | succ n ih => simp [leBytes, ih]

/-- Byte k holds bits 8k+7 to 8k. -/
theorem leBytes_getElem (n v k : Nat) (h : k < (leBytes n v).length) :
    (leBytes n v)[k] = BitVec.ofNat 8 (v / 256 ^ k) := by
  induction n generalizing v k with
  | zero => simp [leBytes] at h
  | succ n ih =>
    cases k with
    | zero => simp [leBytes]
    | succ k =>
      simp only [leBytes, List.getElem_cons_succ]
      rw [ih, Nat.div_div_eq_div_mul, ← Nat.pow_succ']

/-- The number that `n` little-endian bytes of `v` stand for. -/
theorem leValue_leBytes (n v : Nat) : leValue (leBytes n v) = v % 256 ^ n := by
  induction n generalizing v with
  | zero => simp [leBytes, leValue, Nat.mod_one]
  | succ n ih =>
    rw [leBytes, leValue, ih, BitVec.toNat_ofNat, Nat.pow_succ' (m := 256), Nat.mod_mul]

theorem leValue_lt (bs : List Byte) : leValue bs < 256 ^ bs.length := by
  induction bs with
  | nil => simp [leValue]
  | cons b bs ih =>
    have := b.isLt
    simp only [leValue, List.length_cons, Nat.pow_succ]
    omega

/-! ### What a read gathers (R62) -/

/-- Gathered bytes are the bytes at the places, and there are as many. -/
theorem gather_ok {f : Nat → Word → Option Byte} {i : Nat} {as : List Word} {bs : List Byte} :
    gather f i as = .ok bs ↔
      bs.length = as.length ∧ ∀ k (h : k < as.length), f (i + k) as[k] = bs[k]? := by
  induction as generalizing i bs with
  | nil =>
    cases bs <;> simp [gather]
  | cons a as ih =>
    constructor
    · intro h
      simp only [gather] at h
      cases hb : f i a with
      | none => simp [hb] at h
      | some b =>
        simp only [hb] at h
        cases hg : gather f (i + 1) as with
        | denied => simp [hg] at h
        | noValue c => simp [hg] at h
        | ok rest =>
          simp only [hg, Access.ok.injEq] at h
          subst h
          obtain ⟨hl, hr⟩ := ih.mp hg
          refine ⟨by simp [hl], fun k hk => ?_⟩
          cases k with
          | zero => simpa using hb
          | succ k =>
            have := hr k (by simpa using hk)
            simpa [Nat.add_assoc, Nat.add_comm 1 k] using this
    · rintro ⟨hl, hr⟩
      cases bs with
      | nil => simp at hl
      | cons b bs =>
        have h0 := hr 0 (by simp)
        have hg : gather f (i + 1) as = .ok bs := by
          refine ih.mpr ⟨by simpa using hl, fun k hk => ?_⟩
          have := hr (k + 1) (by simpa using hk)
          simpa [Nat.add_assoc, Nat.add_comm 1 k] using this
        simp only [Nat.add_zero, List.getElem_cons_zero, List.getElem?_cons_zero] at h0
        simp [gather, h0, hg]

/-- Gathering stops at the first place without a byte. -/
theorem gather_noValue {f : Nat → Word → Option Byte} {i k : Nat} {as : List Word} (hk : k < as.length)
    (he : ∀ j (h : j < k), f (i + j) (as[j]'(by omega)) ≠ none) (hn : f (i + k) as[k] = none) :
    gather f i as = .noValue as[k] := by
  induction as generalizing i k with
  | nil => simp at hk
  | cons a as ih =>
    cases k with
    | zero =>
      simp only [Nat.add_zero, List.getElem_cons_zero] at hn
      simp [gather, hn]
    | succ k =>
      obtain ⟨b, hb⟩ := Option.ne_none_iff_exists'.mp (he 0 (by omega))
      have hk' : k < as.length := by simpa using hk
      have hg : gather f (i + 1) as = .noValue as[k] := by
        refine ih hk' (fun j hj => ?_) ?_
        · have := he (j + 1) (by omega)
          simpa [Nat.add_assoc, Nat.add_comm 1 j] using this
        · simpa [Nat.add_assoc, Nat.add_comm 1 k] using hn
      simp only [Nat.add_zero, List.getElem_cons_zero] at hb
      simp [gather, hb, hg]

/-- Gathering never denies: that is decided before. -/
theorem gather_ne_denied (f : Nat → Word → Option Byte) (i : Nat) (as : List Word) :
    gather f i as ≠ .denied := by
  induction as generalizing i with
  | nil => simp [gather]
  | cons a as ih =>
    simp only [gather]
    cases f i a with
    | none => simp
    | some b =>
      have := ih (i + 1)
      cases hg : gather f (i + 1) as <;> simp_all

/-- Everything `memRead` can answer (R62, R70). -/
theorem memRead_cases (a : Word) (n : Nat) (s : State) :
    (Accessible .load a n s ∧ ∃ bytes, gather (loadByte s) 0 (byteAddrs a n) = .ok bytes ∧
      bytes.length = n ∧ memRead a n s = .ok (bytes,
        (s.countDraw ((byteAddrs a n).any (fun b => s.platform.isIO b))).observe
          (.load (loadClasses s.platform (byteAddrs a n)) a bytes))) ∨
    (Accessible .load a n s ∧ ∃ b, gather (loadByte s) 0 (byteAddrs a n) = .noValue b ∧
      memRead a n s = .noValue b) ∨
    (¬ Accessible .load a n s ∧ memRead a n s = .denied) := by
  by_cases hacc : (byteAddrs a n).all (fun b => s.platform.accessible .load b) = true
  · have ha : Accessible .load a n s := (all_byteAddrs _).mp hacc
    cases hg : gather (loadByte s) 0 (byteAddrs a n) with
    | ok bytes =>
      refine .inl ⟨ha, bytes, rfl, ?_, by simp [memRead, hacc, hg]⟩
      simpa using (gather_ok.mp hg).1
    | denied => exact absurd hg (gather_ne_denied (loadByte s) 0 (byteAddrs a n))
    | noValue b => exact .inr (.inl ⟨ha, b, rfl, by simp [memRead, hacc, hg]⟩)
  · exact .inr (.inr ⟨fun ha => hacc ((all_byteAddrs _).mpr ha), by simp [memRead, hacc]⟩)

/-! ### What the bytes of a store change and leave (R39, R63) -/

section StoreBytes

variable (s : State) (as : List Word) (bs : List Byte)

/-- One byte more: the rest is stored after it. -/
@[simp] theorem State.storeBytes_cons (a : Word) (b : Byte) :
    s.storeBytes (a :: as) (b :: bs) = (s.storeByte a b).storeBytes as bs := rfl

@[simp] theorem State.storeBytes_nil_left : s.storeBytes [] bs = s := by cases bs <;> rfl
@[simp] theorem State.storeBytes_nil_right : s.storeBytes as [] = s := by cases as <;> rfl

/-- What every byte's store keeps, all of them keep. -/
theorem State.storeBytes_induct {motive : State → State → Prop} (refl : ∀ s, motive s s)
    (trans : ∀ {s t u}, motive s t → motive t u → motive s u)
    (byte : ∀ s a b, motive s (s.storeByte a b)) : motive s (s.storeBytes as bs) := by
  induction as generalizing s bs with
  | nil => simpa using refl s
  | cons a as ih =>
    cases bs with
    | nil => simpa using refl s
    | cons b bs => exact trans (byte s a b) (ih (s.storeByte a b) bs)

/-- A store touches memory and the fetch view alone. -/
theorem State.storeBytes_rest :
    (s.storeBytes as bs).regs = s.regs ∧ (s.storeBytes as bs).pc = s.pc ∧
    (s.storeBytes as bs).instret = s.instret ∧ (s.storeBytes as bs).cycle = s.cycle ∧
    (s.storeBytes as bs).time = s.time ∧ (s.storeBytes as bs).opLog = s.opLog ∧
    (s.storeBytes as bs).handoff = s.handoff ∧ (s.storeBytes as bs).platform = s.platform ∧
    (s.storeBytes as bs).draws = s.draws :=
  State.storeBytes_induct (motive := fun s t => t.regs = s.regs ∧ t.pc = s.pc ∧ t.instret = s.instret ∧
      t.cycle = s.cycle ∧ t.time = s.time ∧ t.opLog = s.opLog ∧ t.handoff = s.handoff ∧
      t.platform = s.platform ∧ t.draws = s.draws) s as bs
    (fun _ => by simp) (fun h g => by simp [h, g]) (fun _ _ _ => by simp)

@[simp] theorem State.storeBytes_pc : (s.storeBytes as bs).pc = s.pc := (s.storeBytes_rest as bs).2.1
@[simp] theorem State.storeBytes_instret : (s.storeBytes as bs).instret = s.instret :=
  (s.storeBytes_rest as bs).2.2.1
@[simp] theorem State.storeBytes_cycle : (s.storeBytes as bs).cycle = s.cycle :=
  (s.storeBytes_rest as bs).2.2.2.1
@[simp] theorem State.storeBytes_time : (s.storeBytes as bs).time = s.time :=
  (s.storeBytes_rest as bs).2.2.2.2.1
@[simp] theorem State.storeBytes_opLog : (s.storeBytes as bs).opLog = s.opLog :=
  (s.storeBytes_rest as bs).2.2.2.2.2.1
@[simp] theorem State.storeBytes_handoff : (s.storeBytes as bs).handoff = s.handoff :=
  (s.storeBytes_rest as bs).2.2.2.2.2.2.1
@[simp] theorem State.storeBytes_platform : (s.storeBytes as bs).platform = s.platform :=
  (s.storeBytes_rest as bs).2.2.2.2.2.2.2.1
@[simp] theorem State.storeBytes_draws : (s.storeBytes as bs).draws = s.draws :=
  (s.storeBytes_rest as bs).2.2.2.2.2.2.2.2
@[simp] theorem State.storeBytes_reg (r : Reg) : (s.storeBytes as bs).reg r = s.reg r :=
  State.reg_congr (s.storeBytes_rest as bs).1 r

/-- A store keeps the canonical form of memory. -/
theorem State.storeBytes_mem_wf (h : s.mem.wf = true) : (s.storeBytes as bs).mem.wf = true :=
  State.storeBytes_induct (motive := fun s t => s.mem.wf = true → t.mem.wf = true) s as bs
    (fun _ h => h) (fun h g hs => g (h hs))
    (fun s a b hs => by
      unfold State.storeByte
      split
      · exact hs
      · exact Memory.wf_write hs a b) h

/-- A store keeps the canonical form of the fetch view. -/
theorem State.storeBytes_fetchView_wf (h : s.fetchView.wf = true) :
    (s.storeBytes as bs).fetchView.wf = true :=
  State.storeBytes_induct (motive := fun s t => s.fetchView.wf = true → t.fetchView.wf = true) s as bs
    (fun _ h => h) (fun h g hs => g (h hs))
    (fun s a b hs => by
      unfold State.storeByte
      split
      · exact hs
      · exact FetchView.wf_record hs a _) h

end StoreBytes

theorem State.storeByte_read_ne (s : State) (a : Word) (b : Byte) {c : Word} (h : c ≠ a) :
    (s.storeByte a b).mem.read c = s.mem.read c := by
  unfold State.storeByte
  split
  · rfl
  · exact Memory.read_write_ne _ _ _ h

theorem State.storeByte_older_ne (s : State) (a : Word) (b : Byte) {c : Word} (h : c ≠ a) :
    (s.storeByte a b).fetchView.older c = s.fetchView.older c := by
  unfold State.storeByte
  split
  · rfl
  · exact FetchView.older_record_ne _ _ _ h

/-- Bytes at other addresses than a store's read as before. -/
theorem State.storeBytes_read_ne (s : State) (as : List Word) (bs : List Byte) {c : Word} (h : c ∉ as) :
    (s.storeBytes as bs).mem.read c = s.mem.read c := by
  induction as generalizing s bs with
  | nil => simp
  | cons a as ih =>
    cases bs with
    | nil => simp
    | cons b bs =>
      simp only [List.mem_cons, not_or] at h
      rw [State.storeBytes_cons, ih _ _ h.2, State.storeByte_read_ne _ _ _ h.1]

/-- The fetch view of other addresses than a store's is as before. -/
theorem State.storeBytes_older_ne (s : State) (as : List Word) (bs : List Byte) {c : Word} (h : c ∉ as) :
    (s.storeBytes as bs).fetchView.older c = s.fetchView.older c := by
  induction as generalizing s bs with
  | nil => simp
  | cons a as ih =>
    cases bs with
    | nil => simp
    | cons b bs =>
      simp only [List.mem_cons, not_or] at h
      rw [State.storeBytes_cons, ih _ _ h.2, State.storeByte_older_ne _ _ _ h.1]

/-- Bytes of I/O are changed by no store, and fetch sees them as before (R72). -/
theorem State.storeBytes_io (s : State) (as : List Word) (bs : List Byte) {c : Word}
    (h : s.platform.isIO c = true) : (s.storeBytes as bs).mem.read c = s.mem.read c ∧
      (s.storeBytes as bs).fetchView.older c = s.fetchView.older c := by
  induction as generalizing s bs with
  | nil => simp
  | cons a as ih =>
    cases bs with
    | nil => simp
    | cons b bs =>
      rw [State.storeBytes_cons, (ih (s.storeByte a b) bs (by simpa using h)).1,
        (ih (s.storeByte a b) bs (by simpa using h)).2]
      by_cases hc : c = a
      · subst hc
        simp [State.storeByte, h]
      · exact ⟨State.storeByte_read_ne _ _ _ hc, State.storeByte_older_ne _ _ _ hc⟩

/-- A byte stored to memory reads back where the addresses differ, and fetch may see what it could see of
the byte before and what the byte held, and no more (R39). -/
theorem State.storeBytes_stored (s : State) (as : List Word) (bs : List Byte) (hn : as.Nodup)
    (hl : bs.length = as.length) (k : Nat) (hk : k < as.length) (hio : s.platform.isIO as[k] = false) :
    (s.storeBytes as bs).mem.read as[k] = bs[k]? ∧ KeepsOlder as[k] s (s.storeBytes as bs) := by
  induction as generalizing s bs k with
  | nil => simp at hk
  | cons a as ih =>
    cases bs with
    | nil => simp at hl
    | cons b bs =>
      have hna := (List.nodup_cons.mp hn).1
      cases k with
      | zero =>
        have hstep : s.storeByte a b =
            { s with mem := s.mem.write a b, fetchView := s.fetchView.record a (s.mem.read a) } := by
          simp only [List.getElem_cons_zero] at hio
          simp [State.storeByte, hio]
        refine ⟨?_, fun o => ?_⟩
        · simp only [State.storeBytes_cons, List.getElem_cons_zero]
          rw [State.storeBytes_read_ne _ _ _ hna, hstep]
          simp
        · simp only [State.storeBytes_cons, List.getElem_cons_zero]
          rw [State.storeBytes_older_ne _ _ _ hna, hstep]
          exact FetchView.mem_older_record ..
      | succ k =>
        have hk' : k < as.length := by simpa using hk
        have hne : as[k] ≠ a := fun e => hna (e ▸ List.getElem_mem hk')
        have := ih (s.storeByte a b) bs (List.nodup_cons.mp hn).2 (by simpa using hl) k hk'
          (by simpa using hio)
        simp only [State.storeBytes_cons, List.getElem_cons_succ, List.getElem?_cons_succ]
        simpa only [KeepsOlder, State.storeByte_read_ne _ _ _ hne, State.storeByte_older_ne _ _ _ hne] using this

/-- Everything `memWrite` can answer (R63, R70). -/
theorem memWrite_cases (a : Word) (n v : Nat) (s : State) :
    (Accessible .store a n s ∧ memWrite a n v s =
      some ((s.storeBytes (byteAddrs a n) (leBytes n v)).observe
        (.store (storeClasses s.platform (byteAddrs a n)) a (leBytes n v)))) ∨
    (¬ Accessible .store a n s ∧ memWrite a n v s = none) := by
  by_cases hacc : (byteAddrs a n).all (fun b => s.platform.accessible .store b) = true
  · exact .inl ⟨(all_byteAddrs _).mp hacc, by simp [memWrite, hacc]⟩
  · exact .inr ⟨fun ha => hacc ((all_byteAddrs _).mpr ha), by simp [memWrite, hacc]⟩

/-! ### Classes of an access that touches no device (R76) -/

theorem loadClasses_notIO {p : Platform} {a : Word} {n : Nat} (hn : 0 < n)
    (h : ∀ k < n, p.isIO (byteAddr a k) = false) : loadClasses p (byteAddrs a n) = memoryRead := by
  have h1 := (any_byteAddrs_false (a := a) (n := n) (fun b => p.isIO b)).mpr h
  have h2 : (byteAddrs a n).any (fun b => !p.isIO b) = true := by
    rw [List.any_eq_true]
    exact ⟨byteAddr a 0, mem_byteAddrs.mpr ⟨0, hn, rfl⟩, by simp [h 0 hn]⟩
  simp [loadClasses, memoryRead, h1, h2]

theorem storeClasses_notIO {p : Platform} {a : Word} {n : Nat} (hn : 0 < n)
    (h : ∀ k < n, p.isIO (byteAddr a k) = false) : storeClasses p (byteAddrs a n) = memoryWrite := by
  have h1 := (any_byteAddrs_false (a := a) (n := n) (fun b => p.isIO b)).mpr h
  have h2 : (byteAddrs a n).any (fun b => !p.isIO b) = true := by
    rw [List.any_eq_true]
    exact ⟨byteAddr a 0, mem_byteAddrs.mpr ⟨0, hn, rfl⟩, by simp [h 0 hn]⟩
  simp [storeClasses, memoryWrite, h1, h2]

end Sys2Proof.Machine
end

