-- ==== Sys2Proof/Laws/Encoding.lean ====
section
/-! SUPPORT. The fields of encoded words, and when a row of the opcode table fits a word. -/

namespace Sys2Proof

/-! ### A row fits a word when the word's fixed fields are the row's (R117, R118) -/

theorem and_mask_opcode (w : Word) :
    w &&& 0x0000007F#32 = 0#25 ++ opcodeField w := by
  apply BitVec.eq_of_getLsbD_eq
  intro k hk
  unfold opcodeField
  repeat rw [BitVec.getLsbD_append]
  interval_cases k <;> simp

theorem and_mask_funct3 (w : Word) :
    w &&& 0x0000707F#32 = 0#17 ++ funct3Field w ++ 0#5 ++ opcodeField w := by
  apply BitVec.eq_of_getLsbD_eq
  intro k hk
  unfold opcodeField funct3Field
  repeat rw [BitVec.getLsbD_append]
  interval_cases k <;> simp

theorem and_mask_funct7 (w : Word) :
    w &&& 0xFE00707F#32 = funct7Field w ++ 0#10 ++ funct3Field w ++ 0#5 ++ opcodeField w := by
  apply BitVec.eq_of_getLsbD_eq
  intro k hk
  unfold opcodeField funct3Field funct7Field
  repeat rw [BitVec.getLsbD_append]
  interval_cases k <;> simp

theorem append_inj {m n : Nat} {a a' : BitVec m} {b b' : BitVec n} (h : a ++ b = a' ++ b') :
    a = a' ∧ b = b' := by
  have hl : ∀ k, (a ++ b).getLsbD k = (a' ++ b').getLsbD k := fun k => by rw [h]
  constructor
  · apply BitVec.eq_of_getLsbD_eq
    intro k hk
    have := hl (k + n)
    simpa [BitVec.getLsbD_append] using this
  · apply BitVec.eq_of_getLsbD_eq
    intro k hk
    have := hl k
    simpa [BitVec.getLsbD_append, hk] using this

theorem rowOp_fits (m : String) (op : BitVec 7) (build : Word → Instr) (w : Word) :
    (rowOp m op build).fits w = true ↔ opcodeField w = op := by
  simp only [Row.fits, rowOp, beq_iff_eq, and_mask_opcode]
  exact ⟨fun h => (append_inj h).2, fun h => by rw [h]⟩

theorem rowF3_fits (m : String) (f3 : BitVec 3) (op : BitVec 7) (build : Word → Instr) (w : Word) :
    (rowF3 m f3 op build).fits w = true ↔ funct3Field w = f3 ∧ opcodeField w = op := by
  simp only [Row.fits, rowF3, beq_iff_eq, and_mask_funct3]
  refine ⟨fun h => ?_, fun h => by rw [h.1, h.2]⟩
  have h1 := append_inj h
  exact ⟨(append_inj (append_inj h1.1).1).2, h1.2⟩

theorem rowF7_fits (m : String) (f7 : BitVec 7) (f3 : BitVec 3) (op : BitVec 7) (build : Word → Instr)
    (w : Word) : (rowF7 m f7 f3 op build).fits w = true ↔
      funct7Field w = f7 ∧ funct3Field w = f3 ∧ opcodeField w = op := by
  simp only [Row.fits, rowF7, beq_iff_eq, and_mask_funct7]
  refine ⟨fun h => ?_, fun h => by rw [h.1, h.2.1, h.2.2]⟩
  have h1 := append_inj h
  have h2 := append_inj (append_inj h1.1).1
  exact ⟨(append_inj h2.1).1, h2.2, h1.2⟩

theorem rowPriv_fits (m : String) (f12 : BitVec 12) (i : Instr) (w : Word) :
    (rowPriv m f12 i).fits w = true ↔ w = f12 ++ 0#13 ++ 0b1110011#7 := by
  have h : w &&& 0xFFFFFFFF#32 = w := by
    have : (0xFFFFFFFF#32) = BitVec.allOnes 32 := rfl
    rw [this, BitVec.and_allOnes]
  simp only [Row.fits, rowPriv, beq_iff_eq, h]

/-! ### The bits of packed words (R102 to R107) -/

section Fields

variable (f7 : BitVec 7) (f3 : BitVec 3) (op : BitVec 7) (rd rs1 rs2 : Reg) (imm : BitVec 12)
  (off : BitVec 13) (joff : BitVec 21) (imm20 : BitVec 20)

theorem packR_bit (k : Nat) (hk : k < 32) : (packR f7 rs2 rs1 f3 rd op)[k] =
      if k < 7 then op.getLsbD k else
      if k < 12 then rd.getLsbD (k - 7) else
      if k < 15 then f3.getLsbD (k - 12) else
      if k < 20 then rs1.getLsbD (k - 15) else
      if k < 25 then rs2.getLsbD (k - 20) else
      f7.getLsbD (k - 25) := by
  rw [← BitVec.getLsbD_eq_getElem]
  unfold packR
  repeat rw [BitVec.getLsbD_append]
  interval_cases k <;> simp

theorem packI_bit (k : Nat) (hk : k < 32) : (packI imm rs1 f3 rd op)[k] =
      if k < 7 then op.getLsbD k else
      if k < 12 then rd.getLsbD (k - 7) else
      if k < 15 then f3.getLsbD (k - 12) else
      if k < 20 then rs1.getLsbD (k - 15) else
      imm.getLsbD (k - 20) := by
  rw [← BitVec.getLsbD_eq_getElem]
  unfold packI
  repeat rw [BitVec.getLsbD_append]
  interval_cases k <;> simp

theorem packS_bit (k : Nat) (hk : k < 32) : (packS imm rs2 rs1 f3 op)[k] =
      if k < 7 then op.getLsbD k else
      if k < 12 then imm.getLsbD (k - 7) else
      if k < 15 then f3.getLsbD (k - 12) else
      if k < 20 then rs1.getLsbD (k - 15) else
      if k < 25 then rs2.getLsbD (k - 20) else
      imm.getLsbD (k - 20) := by
  rw [← BitVec.getLsbD_eq_getElem]
  unfold packS
  repeat rw [BitVec.getLsbD_append]
  interval_cases k <;> simp

theorem packB_bit (k : Nat) (hk : k < 32) : (packB off rs2 rs1 f3 op)[k] =
      if k < 7 then op.getLsbD k else
      if k < 8 then off.getLsbD (k + 4) else
      if k < 12 then off.getLsbD (k - 7) else
      if k < 15 then f3.getLsbD (k - 12) else
      if k < 20 then rs1.getLsbD (k - 15) else
      if k < 25 then rs2.getLsbD (k - 20) else
      if k < 31 then off.getLsbD (k - 20) else
      off.getLsbD (k - 19) := by
  rw [← BitVec.getLsbD_eq_getElem]
  unfold packB
  repeat rw [BitVec.getLsbD_append]
  interval_cases k <;> simp

theorem packU_bit (k : Nat) (hk : k < 32) : (packU imm20 rd op)[k] =
      if k < 7 then op.getLsbD k else
      if k < 12 then rd.getLsbD (k - 7) else
      imm20.getLsbD (k - 12) := by
  rw [← BitVec.getLsbD_eq_getElem]
  unfold packU
  repeat rw [BitVec.getLsbD_append]
  interval_cases k <;> simp

theorem packJ_bit (k : Nat) (hk : k < 32) : (packJ joff rd op)[k] =
      if k < 7 then op.getLsbD k else
      if k < 12 then rd.getLsbD (k - 7) else
      if k < 20 then joff.getLsbD k else
      if k < 21 then joff.getLsbD (k - 9) else
      if k < 31 then joff.getLsbD (k - 20) else
      joff.getLsbD (k - 11) := by
  rw [← BitVec.getLsbD_eq_getElem]
  unfold packJ
  repeat rw [BitVec.getLsbD_append]
  interval_cases k <;> simp

/-! ### The fields of packed words -/

@[simp] theorem opcodeField_packR : opcodeField (packR f7 rs2 rs1 f3 rd op) = op := by
  apply BitVec.eq_of_getLsbD_eq
  intro k hk
  unfold opcodeField
  rw [BitVec.getLsbD_extractLsb']
  interval_cases k <;> simp [packR_bit]

@[simp] theorem opcodeField_packI : opcodeField (packI imm rs1 f3 rd op) = op := by
  apply BitVec.eq_of_getLsbD_eq
  intro k hk
  unfold opcodeField
  rw [BitVec.getLsbD_extractLsb']
  interval_cases k <;> simp [packI_bit]

@[simp] theorem opcodeField_packS : opcodeField (packS imm rs2 rs1 f3 op) = op := by
  apply BitVec.eq_of_getLsbD_eq
  intro k hk
  unfold opcodeField
  rw [BitVec.getLsbD_extractLsb']
  interval_cases k <;> simp [packS_bit]

@[simp] theorem opcodeField_packB : opcodeField (packB off rs2 rs1 f3 op) = op := by
  apply BitVec.eq_of_getLsbD_eq
  intro k hk
  unfold opcodeField
  rw [BitVec.getLsbD_extractLsb']
  interval_cases k <;> simp [packB_bit]

@[simp] theorem opcodeField_packU : opcodeField (packU imm20 rd op) = op := by
  apply BitVec.eq_of_getLsbD_eq
  intro k hk
  unfold opcodeField
  rw [BitVec.getLsbD_extractLsb']
  interval_cases k <;> simp [packU_bit]

@[simp] theorem opcodeField_packJ : opcodeField (packJ joff rd op) = op := by
  apply BitVec.eq_of_getLsbD_eq
  intro k hk
  unfold opcodeField
  rw [BitVec.getLsbD_extractLsb']
  interval_cases k <;> simp [packJ_bit]

@[simp] theorem rdField_packR : rdField (packR f7 rs2 rs1 f3 rd op) = rd := by
  apply BitVec.eq_of_getLsbD_eq
  intro k hk
  unfold rdField
  rw [BitVec.getLsbD_extractLsb']
  interval_cases k <;> simp [packR_bit]

@[simp] theorem rdField_packI : rdField (packI imm rs1 f3 rd op) = rd := by
  apply BitVec.eq_of_getLsbD_eq
  intro k hk
  unfold rdField
  rw [BitVec.getLsbD_extractLsb']
  interval_cases k <;> simp [packI_bit]

@[simp] theorem rdField_packU : rdField (packU imm20 rd op) = rd := by
  apply BitVec.eq_of_getLsbD_eq
  intro k hk
  unfold rdField
  rw [BitVec.getLsbD_extractLsb']
  interval_cases k <;> simp [packU_bit]

@[simp] theorem rdField_packJ : rdField (packJ joff rd op) = rd := by
  apply BitVec.eq_of_getLsbD_eq
  intro k hk
  unfold rdField
  rw [BitVec.getLsbD_extractLsb']
  interval_cases k <;> simp [packJ_bit]

@[simp] theorem funct3Field_packR : funct3Field (packR f7 rs2 rs1 f3 rd op) = f3 := by
  apply BitVec.eq_of_getLsbD_eq
  intro k hk
  unfold funct3Field
  rw [BitVec.getLsbD_extractLsb']
  interval_cases k <;> simp [packR_bit]

@[simp] theorem funct3Field_packI : funct3Field (packI imm rs1 f3 rd op) = f3 := by
  apply BitVec.eq_of_getLsbD_eq
  intro k hk
  unfold funct3Field
  rw [BitVec.getLsbD_extractLsb']
  interval_cases k <;> simp [packI_bit]

@[simp] theorem funct3Field_packS : funct3Field (packS imm rs2 rs1 f3 op) = f3 := by
  apply BitVec.eq_of_getLsbD_eq
  intro k hk
  unfold funct3Field
  rw [BitVec.getLsbD_extractLsb']
  interval_cases k <;> simp [packS_bit]

@[simp] theorem funct3Field_packB : funct3Field (packB off rs2 rs1 f3 op) = f3 := by
  apply BitVec.eq_of_getLsbD_eq
  intro k hk
  unfold funct3Field
  rw [BitVec.getLsbD_extractLsb']
  interval_cases k <;> simp [packB_bit]

@[simp] theorem rs1Field_packR : rs1Field (packR f7 rs2 rs1 f3 rd op) = rs1 := by
  apply BitVec.eq_of_getLsbD_eq
  intro k hk
  unfold rs1Field
  rw [BitVec.getLsbD_extractLsb']
  interval_cases k <;> simp [packR_bit]

@[simp] theorem rs1Field_packI : rs1Field (packI imm rs1 f3 rd op) = rs1 := by
  apply BitVec.eq_of_getLsbD_eq
  intro k hk
  unfold rs1Field
  rw [BitVec.getLsbD_extractLsb']
  interval_cases k <;> simp [packI_bit]

@[simp] theorem rs1Field_packS : rs1Field (packS imm rs2 rs1 f3 op) = rs1 := by
  apply BitVec.eq_of_getLsbD_eq
  intro k hk
  unfold rs1Field
  rw [BitVec.getLsbD_extractLsb']
  interval_cases k <;> simp [packS_bit]

@[simp] theorem rs1Field_packB : rs1Field (packB off rs2 rs1 f3 op) = rs1 := by
  apply BitVec.eq_of_getLsbD_eq
  intro k hk
  unfold rs1Field
  rw [BitVec.getLsbD_extractLsb']
  interval_cases k <;> simp [packB_bit]

@[simp] theorem rs2Field_packR : rs2Field (packR f7 rs2 rs1 f3 rd op) = rs2 := by
  apply BitVec.eq_of_getLsbD_eq
  intro k hk
  unfold rs2Field
  rw [BitVec.getLsbD_extractLsb']
  interval_cases k <;> simp [packR_bit]

@[simp] theorem rs2Field_packS : rs2Field (packS imm rs2 rs1 f3 op) = rs2 := by
  apply BitVec.eq_of_getLsbD_eq
  intro k hk
  unfold rs2Field
  rw [BitVec.getLsbD_extractLsb']
  interval_cases k <;> simp [packS_bit]

@[simp] theorem rs2Field_packB : rs2Field (packB off rs2 rs1 f3 op) = rs2 := by
  apply BitVec.eq_of_getLsbD_eq
  intro k hk
  unfold rs2Field
  rw [BitVec.getLsbD_extractLsb']
  interval_cases k <;> simp [packB_bit]

@[simp] theorem funct7Field_packR : funct7Field (packR f7 rs2 rs1 f3 rd op) = f7 := by
  apply BitVec.eq_of_getLsbD_eq
  intro k hk
  unfold funct7Field
  rw [BitVec.getLsbD_extractLsb']
  interval_cases k <;> simp [packR_bit]

@[simp] theorem immIField_packI : immIField (packI imm rs1 f3 rd op) = imm := by
  apply BitVec.eq_of_getLsbD_eq
  intro k hk
  unfold immIField
  rw [BitVec.getLsbD_extractLsb']
  interval_cases k <;> simp [packI_bit]

@[simp] theorem immUField_packU : immUField (packU imm20 rd op) = imm20 := by
  apply BitVec.eq_of_getLsbD_eq
  intro k hk
  unfold immUField
  rw [BitVec.getLsbD_extractLsb']
  interval_cases k <;> simp [packU_bit]

@[simp] theorem immSField_packS : immSField (packS imm rs2 rs1 f3 op) = imm := by
  apply BitVec.eq_of_getLsbD_eq
  intro k hk
  unfold immSField
  repeat rw [BitVec.getLsbD_append]
  interval_cases k <;> simp [packS_bit]

/-- The B immediate of a packed even offset is the offset (R110). -/
theorem immBField_packB (h : evenOffset off = true) : immBField (packB off rs2 rs1 f3 op) = off := by
  have h0 : off.getLsbD 0 = false := by simpa [evenOffset] using h
  apply BitVec.eq_of_getLsbD_eq
  intro k hk
  unfold immBField
  repeat rw [BitVec.getLsbD_append]
  interval_cases k <;> simp [packB_bit]
  simpa using h0.symm

/-- The J immediate of a packed even offset is the offset (R112). -/
theorem immJField_packJ (h : evenOffset joff = true) : immJField (packJ joff rd op) = joff := by
  have h0 : joff.getLsbD 0 = false := by simpa [evenOffset] using h
  apply BitVec.eq_of_getLsbD_eq
  intro k hk
  unfold immJField
  repeat rw [BitVec.getLsbD_append]
  interval_cases k <;> simp [packJ_bit]
  simpa using h0.symm

end Fields

/-- The four bits of a FENCE set give the set back (R115). -/
theorem fenceSetOfBits_bitsOfFenceSet (f : FenceSet) : fenceSetOfBits (bitsOfFenceSet f) = f := by
  obtain ⟨i, o, r, w⟩ := f
  cases i <;> cases o <;> cases r <;> cases w <;> rfl

/-- The predecessor set of a packed FENCE (R115). -/
theorem predField_pack (pred succ : FenceSet) (rs1 rd : Reg) (f3 : BitVec 3) (op : BitVec 7) :
    predField (packI (0#4 ++ bitsOfFenceSet pred ++ bitsOfFenceSet succ) rs1 f3 rd op) = pred := by
  have : (packI (0#4 ++ bitsOfFenceSet pred ++ bitsOfFenceSet succ) rs1 f3 rd op).extractLsb' 24 4 =
      bitsOfFenceSet pred := by
    apply BitVec.eq_of_getLsbD_eq
    intro k hk
    rw [BitVec.getLsbD_extractLsb']
    interval_cases k <;> simp [packI_bit] <;> rw [BitVec.getElem_append] <;> simp <;>
      rw [BitVec.getElem_append] <;> simp
  rw [predField, this, fenceSetOfBits_bitsOfFenceSet]

/-- The successor set of a packed FENCE (R115). -/
theorem succField_pack (pred succ : FenceSet) (rs1 rd : Reg) (f3 : BitVec 3) (op : BitVec 7) :
    succField (packI (0#4 ++ bitsOfFenceSet pred ++ bitsOfFenceSet succ) rs1 f3 rd op) = succ := by
  have : (packI (0#4 ++ bitsOfFenceSet pred ++ bitsOfFenceSet succ) rs1 f3 rd op).extractLsb' 20 4 =
      bitsOfFenceSet succ := by
    apply BitVec.eq_of_getLsbD_eq
    intro k hk
    rw [BitVec.getLsbD_extractLsb']
    interval_cases k <;> simp [packI_bit] <;> rw [BitVec.getElem_append] <;> simp
  rw [succField, this, fenceSetOfBits_bitsOfFenceSet]

end Sys2Proof
end

