-- ==== Sys2Proof/Laws/Ops.lean ====
section
/-! SUPPORT. One lemma for each shared operation that says once everything it can answer. -/

namespace Sys2Proof.Machine

/-! ### Targets and branches (R203, R204) -/

/-- `aligned4` tests for a multiple of 4. -/
theorem aligned4_iff (t : Word) : aligned4 t = true ↔ t.toNat % 4 = 0 := by
  unfold aligned4
  rw [beq_iff_eq, ← BitVec.toNat_inj, BitVec.toNat_setWidth]
  simp

theorem aligned4_false_iff (t : Word) : aligned4 t = false ↔ t.toNat % 4 ≠ 0 := by
  rw [← Bool.not_eq_true, aligned4_iff]

/-- Going on in sequence keeps the pc a multiple of 4, modulo 2^32 (R26, R27). -/
theorem nextPc_aligned {s : State} (h : s.pc.toNat % 4 = 0) : s.nextPc.toNat % 4 = 0 := by
  simp only [State.nextPc, BitVec.toNat_add, BitVec.toNat_ofNat]
  omega

theorem jump_cases (rd : Reg) (target : Word) (s : State) :
    (target.toNat % 4 = 0 ∧ jump rd target s = .next ((s.setReg rd s.nextPc).retire target)) ∨
    (target.toNat % 4 ≠ 0 ∧ jump rd target s = .next (s.raise .instructionAddressMisaligned (some target))) := by
  by_cases h : aligned4 target = true
  · exact .inl ⟨(aligned4_iff _).mp h, by simp [jump, h]⟩
  · exact .inr ⟨fun e => h ((aligned4_iff _).mpr e), by simp [jump, h, trap]⟩

theorem branch_cases (cond : Bool) (off : BitVec 13) (s : State) :
    (cond = false ∧ branch cond off s = .next (s.retire s.nextPc)) ∨
    (cond = true ∧ (s.pc + branchOffset off).toNat % 4 = 0 ∧
      branch cond off s = .next (s.retire (s.pc + branchOffset off))) ∨
    (cond = true ∧ (s.pc + branchOffset off).toNat % 4 ≠ 0 ∧
      branch cond off s =
        .next (s.raise .instructionAddressMisaligned (some (s.pc + branchOffset off)))) := by
  cases cond with
  | false => exact .inl ⟨rfl, by simp [branch]⟩
  | true =>
    by_cases h : aligned4 (s.pc + branchOffset off) = true
    · exact .inr (.inl ⟨rfl, (aligned4_iff _).mp h, by simp [branch, h]⟩)
    · exact .inr (.inr ⟨rfl, fun e => h ((aligned4_iff _).mpr e), by simp [branch, h, trap]⟩)

/-! ### Loads and stores (R231 to R240) -/

/-- Everything a load can answer: the value, LoadAccessFault, or a byte that holds no value. -/
theorem load_cases (rd rs1 : Reg) (imm : BitVec 12) (n : Nat) (extend : Nat → Word) (s : State) :
    (Accessible .load (effectiveAddr rs1 imm s) n s ∧ ∃ bytes,
      gather (loadByte s) 0 (byteAddrs (effectiveAddr rs1 imm s) n) = .ok bytes ∧ bytes.length = n ∧
      load rd rs1 imm n extend s = .next (((((s.countDraw
        ((byteAddrs (effectiveAddr rs1 imm s) n).any (fun b => s.platform.isIO b))).observe
          (.load (loadClasses s.platform (byteAddrs (effectiveAddr rs1 imm s) n))
            (effectiveAddr rs1 imm s) bytes)).setReg rd (extend (leValue bytes))).retire s.nextPc))) ∨
    (Accessible .load (effectiveAddr rs1 imm s) n s ∧ ∃ b,
      gather (loadByte s) 0 (byteAddrs (effectiveAddr rs1 imm s) n) = .noValue b ∧
      load rd rs1 imm n extend s = .fault (.unwrittenByte b)) ∨
    (¬ Accessible .load (effectiveAddr rs1 imm s) n s ∧
      load rd rs1 imm n extend s = .next (s.raise .loadAccessFault (some (effectiveAddr rs1 imm s)))) := by
  rcases memRead_cases (effectiveAddr rs1 imm s) n s with ⟨ha, bytes, hg, hl, he⟩ | ⟨ha, b, hg, he⟩ | ⟨ha, he⟩
  · exact .inl ⟨ha, bytes, hg, hl, by simp [load, he]⟩
  · exact .inr (.inl ⟨ha, b, hg, by simp [load, he]⟩)
  · exact .inr (.inr ⟨ha, by simp [load, he, trap]⟩)

/-- Everything a store can answer: the stored bytes, or StoreAccessFault. -/
theorem store_cases (rs2 rs1 : Reg) (imm : BitVec 12) (n : Nat) (s : State) :
    (Accessible .store (effectiveAddr rs1 imm s) n s ∧
      store rs2 rs1 imm n s = .next (((s.storeBytes (byteAddrs (effectiveAddr rs1 imm s) n)
        (leBytes n (s.reg rs2).toNat)).observe (.store (storeClasses s.platform
          (byteAddrs (effectiveAddr rs1 imm s) n)) (effectiveAddr rs1 imm s)
            (leBytes n (s.reg rs2).toNat))).retire s.nextPc)) ∨
    (¬ Accessible .store (effectiveAddr rs1 imm s) n s ∧
      store rs2 rs1 imm n s = .next (s.raise .storeAccessFault (some (effectiveAddr rs1 imm s)))) := by
  rcases memWrite_cases (effectiveAddr rs1 imm s) n (s.reg rs2).toNat s with ⟨ha, he⟩ | ⟨ha, he⟩
  · exact .inl ⟨ha, by simp [store, he]⟩
  · exact .inr ⟨ha, by simp [store, he, trap]⟩

/-! ### Counters and CSRs (R287 to R289) -/

/-- A counter answers the greater of its last answer and the oracle's (R287). -/
theorem drawn_toNat (floor draw : DWord) : (drawn floor draw).toNat = max floor.toNat draw.toNat := by
  unfold drawn
  split <;> omega

/-- A draw is never below the floor (R287). -/
theorem le_drawn (floor draw : DWord) : floor.toNat ≤ (drawn floor draw).toNat := by
  rw [drawn_toNat]
  exact Nat.le_max_left ..

/-- A CSR read touches no register, no byte, not the pc and not instret. -/
theorem csrRead_rest (c : Csr) (s : State) :
    (csrRead c s).2.regs = s.regs ∧ (csrRead c s).2.pc = s.pc ∧ (csrRead c s).2.instret = s.instret ∧
    (csrRead c s).2.mem = s.mem ∧ (csrRead c s).2.fetchView = s.fetchView ∧
    (csrRead c s).2.opLog = s.opLog ∧ (csrRead c s).2.handoff = s.handoff ∧
    (csrRead c s).2.platform = s.platform := by
  cases c <;> simp [csrRead]

/-- The counters do not run back over a CSR read (R287). -/
theorem csrRead_monotone (c : Csr) (s : State) :
    s.cycle.toNat ≤ (csrRead c s).2.cycle.toNat ∧ s.time.toNat ≤ (csrRead c s).2.time.toNat := by
  cases c <;> simp [csrRead, le_drawn]

@[simp] theorem Csr.readOnly_eq (c : Csr) : c.readOnly = true := by cases c <;> rfl

/-- An instruction that does not write the CSR reads it (R287). -/
theorem csrReads_of_not_writes {op : CsrOp} {field : BitVec 5} (h : csrWrites op field = false) (rd : Reg) :
    csrReads op rd = true := by
  cases op with
  | swap => simp [csrWrites] at h
  | setBits => rfl
  | clearBits => rfl

/-- Everything a CSR instruction can answer: IllegalInstruction, or a read (R289). -/
theorem csrInstruction_cases (op : CsrOp) (word : Word) (csr : BitVec 12) (rd : Reg) (field : BitVec 5)
    (operand : Word) (s : State) :
    ((csrAt csr = none ∨ csrWrites op field = true) ∧
      csrInstruction op word csr rd field operand s = .next (s.raise .illegalInstruction (some word))) ∨
    (∃ c, csrAt csr = some c ∧ csrWrites op field = false ∧
      csrInstruction op word csr rd field operand s =
        .next (((csrRead c s).2.setReg rd (csrRead c s).1).retire s.nextPc)) := by
  cases hc : csrAt csr with
  | none => exact .inl ⟨.inl rfl, by simp [csrInstruction, hc, trap]⟩
  | some c =>
    cases hw : csrWrites op field with
    | true => exact .inl ⟨.inr rfl, by simp [csrInstruction, hc, hw, trap]⟩
    | false => exact .inr ⟨c, rfl, rfl, by simp [csrInstruction, hc, hw, csrReads_of_not_writes hw rd]⟩

/-! ### Fetch and step (R13, R69, R77, R340) -/

/-- The fetch of a byte gives one value, a device's answer or one that R77 allows. -/
theorem fetchGives_iff (s : State) (k : Nat) (v : Option Byte) :
    FetchGives s k v ↔ fetchByte s k (byteAddr s.pc k) = v := by
  unfold FetchGives fetchByte
  dsimp only
  cases s.platform.isIO (byteAddr s.pc k) with
  | true => simp only [forall_const, reduceCtorEq, false_implies, and_true, if_true, eq_comm]
  | false =>
    cases s.fetchView.older (byteAddr s.pc k) with
    | nil => simp [Nat.mod_one]
    | cons o os =>
      have hlt : Config.fetchChoice s.draws k % (os.length + 2) <
          (s.mem.read (byteAddr s.pc k) :: o :: os).length := Nat.mod_lt _ (Nat.succ_pos _)
      simp [List.getElem?_eq_getElem hlt]

/-- Everything a fetch can answer. -/
theorem fetch_cases (s : State) :
    (Accessible .fetch s.pc 4 s ∧ ∃ bytes, gather (fetchByte s) 0 (byteAddrs s.pc 4) = .ok bytes ∧
      bytes.length = 4 ∧ fetch s = .ok (BitVec.ofNat 32 (leValue bytes),
        s.countDraw ((byteAddrs s.pc 4).any (fun a => fetchDraws s a)))) ∨
    (Accessible .fetch s.pc 4 s ∧ ∃ b, gather (fetchByte s) 0 (byteAddrs s.pc 4) = .noValue b ∧
      fetch s = .noValue b) ∨
    (¬ Accessible .fetch s.pc 4 s ∧ fetch s = .denied) := by
  by_cases hacc : (byteAddrs s.pc 4).all (fun b => s.platform.accessible .fetch b) = true
  · have ha : Accessible .fetch s.pc 4 s := (all_byteAddrs _).mp hacc
    cases hg : gather (fetchByte s) 0 (byteAddrs s.pc 4) with
    | ok bytes =>
      refine .inl ⟨ha, bytes, rfl, ?_, by simp [fetch, hacc, hg]⟩
      simpa using (gather_ok.mp hg).1
    | denied => exact absurd hg (gather_ne_denied (fetchByte s) 0 (byteAddrs s.pc 4))
    | noValue b => exact .inr (.inl ⟨ha, b, rfl, by simp [fetch, hacc, hg]⟩)
  · exact .inr (.inr ⟨fun ha => hacc ((all_byteAddrs _).mpr ha), by simp [fetch, hacc]⟩)

/-- Every next state of a step: the environment resumed the hart, the fetch was denied, the word
encodes nothing, or the decoded instruction ran. -/
theorem step_next_cases {s t : State} (h : step s = .next t) :
    (∃ trap r, s.handoff = some trap ∧ Config.eeiResume trap s = some r ∧ t = s.resume r.val) ∨
    (s.handoff = none ∧ t = s.raise .instructionAccessFault (some s.pc)) ∨
    (s.handoff = none ∧ ∃ w d e, fetch s = .ok (w, s.countDraw d) ∧ decodeWord w = .error e ∧
      t = (s.countDraw d).raise .illegalInstruction (some w)) ∨
    (s.handoff = none ∧ ∃ w d i, fetch s = .ok (w, s.countDraw d) ∧ decodeWord w = .ok i ∧
      exec i (s.countDraw d) = .next t) := by
  unfold step at h
  cases hh : s.handoff with
  | some trap =>
    simp only [hh, afterHandoff] at h
    cases hr : Config.eeiResume trap s with
    | none => simp [hr] at h
    | some r =>
      simp only [hr, Host.Outcome.next.injEq] at h
      exact .inl ⟨trap, r, rfl, hr, h.symm⟩
  | none =>
    simp only [hh] at h
    rcases fetch_cases s with ⟨_, bytes, _, _, hf⟩ | ⟨_, b, _, hf⟩ | ⟨_, hf⟩
    · simp only [hf] at h
      cases hd : decodeWord (BitVec.ofNat 32 (leValue bytes)) with
      | error e =>
        simp only [hd, trap, Host.Outcome.next.injEq] at h
        exact .inr (.inr (.inl ⟨rfl, _, _, e, hf, hd, h.symm⟩))
      | ok i =>
        simp only [hd] at h
        exact .inr (.inr (.inr ⟨rfl, _, _, i, hf, hd, h⟩))
    · simp [hf] at h
    · simp only [hf, trap, Host.Outcome.next.injEq] at h
      exact .inr (.inl ⟨rfl, h.symm⟩)

end Sys2Proof.Machine
end

