-- ==== Sys2Proof/Laws/PerInstr.lean ====
section
/-! SUPPORT. The family EncodesItsRow, one lemma for each constructor of `Instr`: the word of the
instruction is fitted by the row of the opcode table that bears its mnemonic, and the fields that row
reads from the word give the instruction back where it is well formed (R101 to R118). -/

namespace Sys2Proof.Laws

/-- What is stated of each instruction. -/
def EncodesItsRow.Statement (i : Instr) : Prop :=
  ∃ row ∈ opcodeTable, row.mnemonic = i.mnemonic ∧ row.fits (encode i) = true ∧
    (WellFormed i = true → row.build (encode i) = i)

/-- An instruction of a row that fixes the opcode. -/
theorem encodesItsRow_of_op {i : Instr} {k : Nat} {op : BitVec 7} {build : Word → Instr}
    (row : opcodeTable[k]? = some (rowOp i.mnemonic op build)) (ho : opcodeField (encode i) = op)
    (hb : WellFormed i = true → build (encode i) = i) : EncodesItsRow.Statement i :=
  ⟨_, List.mem_of_getElem? row, rfl, (rowOp_fits ..).mpr ho, hb⟩

/-- An instruction of a row that fixes funct3 and the opcode. -/
theorem encodesItsRow_of_f3 {i : Instr} {k : Nat} {f3 : BitVec 3} {op : BitVec 7} {build : Word → Instr}
    (row : opcodeTable[k]? = some (rowF3 i.mnemonic f3 op build)) (h3 : funct3Field (encode i) = f3)
    (ho : opcodeField (encode i) = op) (hb : WellFormed i = true → build (encode i) = i) :
    EncodesItsRow.Statement i :=
  ⟨_, List.mem_of_getElem? row, rfl, (rowF3_fits ..).mpr ⟨h3, ho⟩, hb⟩

/-- An instruction of a row that fixes inst[31:25], funct3 and the opcode. -/
theorem encodesItsRow_of_f7 {i : Instr} {k : Nat} {f7 : BitVec 7} {f3 : BitVec 3} {op : BitVec 7}
    {build : Word → Instr} (row : opcodeTable[k]? = some (rowF7 i.mnemonic f7 f3 op build))
    (h7 : funct7Field (encode i) = f7) (h3 : funct3Field (encode i) = f3)
    (ho : opcodeField (encode i) = op) (hb : WellFormed i = true → build (encode i) = i) :
    EncodesItsRow.Statement i :=
  ⟨_, List.mem_of_getElem? row, rfl, (rowF7_fits ..).mpr ⟨h7, h3, ho⟩, hb⟩

theorem EncodesItsRow.lui (rd : Reg) (imm20 : BitVec 20) : EncodesItsRow.Statement (.lui rd imm20) :=
  encodesItsRow_of_op (k := 0) rfl (by simp [encode]) (fun _ => by simp [encode])

theorem EncodesItsRow.auipc (rd : Reg) (imm20 : BitVec 20) : EncodesItsRow.Statement (.auipc rd imm20) :=
  encodesItsRow_of_op (k := 1) rfl (by simp [encode]) (fun _ => by simp [encode])

theorem EncodesItsRow.jal (rd : Reg) (off : BitVec 21) : EncodesItsRow.Statement (.jal rd off) :=
  encodesItsRow_of_op (k := 2) rfl (by simp [encode]) (fun h => by simp [encode, immJField_packJ _ _ _ h])

theorem EncodesItsRow.jalr (rd rs1 : Reg) (imm : BitVec 12) : EncodesItsRow.Statement (.jalr rd rs1 imm) :=
  encodesItsRow_of_f3 (k := 3) rfl (by simp [encode]) (by simp [encode]) (fun _ => by simp [encode])

theorem EncodesItsRow.beq (rs1 rs2 : Reg) (off : BitVec 13) : EncodesItsRow.Statement (.beq rs1 rs2 off) :=
  encodesItsRow_of_f3 (k := 4) rfl (by simp [encode]) (by simp [encode]) (fun h => by simp [encode, immBField_packB _ _ _ _ _ h])

theorem EncodesItsRow.bne (rs1 rs2 : Reg) (off : BitVec 13) : EncodesItsRow.Statement (.bne rs1 rs2 off) :=
  encodesItsRow_of_f3 (k := 5) rfl (by simp [encode]) (by simp [encode]) (fun h => by simp [encode, immBField_packB _ _ _ _ _ h])

theorem EncodesItsRow.blt (rs1 rs2 : Reg) (off : BitVec 13) : EncodesItsRow.Statement (.blt rs1 rs2 off) :=
  encodesItsRow_of_f3 (k := 6) rfl (by simp [encode]) (by simp [encode]) (fun h => by simp [encode, immBField_packB _ _ _ _ _ h])

theorem EncodesItsRow.bge (rs1 rs2 : Reg) (off : BitVec 13) : EncodesItsRow.Statement (.bge rs1 rs2 off) :=
  encodesItsRow_of_f3 (k := 7) rfl (by simp [encode]) (by simp [encode]) (fun h => by simp [encode, immBField_packB _ _ _ _ _ h])

theorem EncodesItsRow.bltu (rs1 rs2 : Reg) (off : BitVec 13) : EncodesItsRow.Statement (.bltu rs1 rs2 off) :=
  encodesItsRow_of_f3 (k := 8) rfl (by simp [encode]) (by simp [encode]) (fun h => by simp [encode, immBField_packB _ _ _ _ _ h])

theorem EncodesItsRow.bgeu (rs1 rs2 : Reg) (off : BitVec 13) : EncodesItsRow.Statement (.bgeu rs1 rs2 off) :=
  encodesItsRow_of_f3 (k := 9) rfl (by simp [encode]) (by simp [encode]) (fun h => by simp [encode, immBField_packB _ _ _ _ _ h])

theorem EncodesItsRow.lb (rd rs1 : Reg) (imm : BitVec 12) : EncodesItsRow.Statement (.lb rd rs1 imm) :=
  encodesItsRow_of_f3 (k := 10) rfl (by simp [encode]) (by simp [encode]) (fun _ => by simp [encode])

theorem EncodesItsRow.lh (rd rs1 : Reg) (imm : BitVec 12) : EncodesItsRow.Statement (.lh rd rs1 imm) :=
  encodesItsRow_of_f3 (k := 11) rfl (by simp [encode]) (by simp [encode]) (fun _ => by simp [encode])

theorem EncodesItsRow.lw (rd rs1 : Reg) (imm : BitVec 12) : EncodesItsRow.Statement (.lw rd rs1 imm) :=
  encodesItsRow_of_f3 (k := 12) rfl (by simp [encode]) (by simp [encode]) (fun _ => by simp [encode])

theorem EncodesItsRow.lbu (rd rs1 : Reg) (imm : BitVec 12) : EncodesItsRow.Statement (.lbu rd rs1 imm) :=
  encodesItsRow_of_f3 (k := 13) rfl (by simp [encode]) (by simp [encode]) (fun _ => by simp [encode])

theorem EncodesItsRow.lhu (rd rs1 : Reg) (imm : BitVec 12) : EncodesItsRow.Statement (.lhu rd rs1 imm) :=
  encodesItsRow_of_f3 (k := 14) rfl (by simp [encode]) (by simp [encode]) (fun _ => by simp [encode])

theorem EncodesItsRow.sb (rs2 rs1 : Reg) (imm : BitVec 12) : EncodesItsRow.Statement (.sb rs2 rs1 imm) :=
  encodesItsRow_of_f3 (k := 15) rfl (by simp [encode]) (by simp [encode]) (fun _ => by simp [encode])

theorem EncodesItsRow.sh (rs2 rs1 : Reg) (imm : BitVec 12) : EncodesItsRow.Statement (.sh rs2 rs1 imm) :=
  encodesItsRow_of_f3 (k := 16) rfl (by simp [encode]) (by simp [encode]) (fun _ => by simp [encode])

theorem EncodesItsRow.sw (rs2 rs1 : Reg) (imm : BitVec 12) : EncodesItsRow.Statement (.sw rs2 rs1 imm) :=
  encodesItsRow_of_f3 (k := 17) rfl (by simp [encode]) (by simp [encode]) (fun _ => by simp [encode])

theorem EncodesItsRow.addi (rd rs1 : Reg) (imm : BitVec 12) : EncodesItsRow.Statement (.addi rd rs1 imm) :=
  encodesItsRow_of_f3 (k := 18) rfl (by simp [encode]) (by simp [encode]) (fun _ => by simp [encode])

theorem EncodesItsRow.slti (rd rs1 : Reg) (imm : BitVec 12) : EncodesItsRow.Statement (.slti rd rs1 imm) :=
  encodesItsRow_of_f3 (k := 19) rfl (by simp [encode]) (by simp [encode]) (fun _ => by simp [encode])

theorem EncodesItsRow.sltiu (rd rs1 : Reg) (imm : BitVec 12) : EncodesItsRow.Statement (.sltiu rd rs1 imm) :=
  encodesItsRow_of_f3 (k := 20) rfl (by simp [encode]) (by simp [encode]) (fun _ => by simp [encode])

theorem EncodesItsRow.xori (rd rs1 : Reg) (imm : BitVec 12) : EncodesItsRow.Statement (.xori rd rs1 imm) :=
  encodesItsRow_of_f3 (k := 21) rfl (by simp [encode]) (by simp [encode]) (fun _ => by simp [encode])

theorem EncodesItsRow.ori (rd rs1 : Reg) (imm : BitVec 12) : EncodesItsRow.Statement (.ori rd rs1 imm) :=
  encodesItsRow_of_f3 (k := 22) rfl (by simp [encode]) (by simp [encode]) (fun _ => by simp [encode])

theorem EncodesItsRow.andi (rd rs1 : Reg) (imm : BitVec 12) : EncodesItsRow.Statement (.andi rd rs1 imm) :=
  encodesItsRow_of_f3 (k := 23) rfl (by simp [encode]) (by simp [encode]) (fun _ => by simp [encode])

theorem EncodesItsRow.slli (rd rs1 : Reg) (shamt : BitVec 5) : EncodesItsRow.Statement (.slli rd rs1 shamt) :=
  encodesItsRow_of_f7 (k := 24) rfl (by simp [encode]) (by simp [encode]) (by simp [encode]) (fun _ => by simp [encode])

theorem EncodesItsRow.srli (rd rs1 : Reg) (shamt : BitVec 5) : EncodesItsRow.Statement (.srli rd rs1 shamt) :=
  encodesItsRow_of_f7 (k := 25) rfl (by simp [encode]) (by simp [encode]) (by simp [encode]) (fun _ => by simp [encode])

theorem EncodesItsRow.srai (rd rs1 : Reg) (shamt : BitVec 5) : EncodesItsRow.Statement (.srai rd rs1 shamt) :=
  encodesItsRow_of_f7 (k := 26) rfl (by simp [encode]) (by simp [encode]) (by simp [encode]) (fun _ => by simp [encode])

theorem EncodesItsRow.add (rd rs1 rs2 : Reg) : EncodesItsRow.Statement (.add rd rs1 rs2) :=
  encodesItsRow_of_f7 (k := 27) rfl (by simp [encode]) (by simp [encode]) (by simp [encode]) (fun _ => by simp [encode])

theorem EncodesItsRow.sub (rd rs1 rs2 : Reg) : EncodesItsRow.Statement (.sub rd rs1 rs2) :=
  encodesItsRow_of_f7 (k := 28) rfl (by simp [encode]) (by simp [encode]) (by simp [encode]) (fun _ => by simp [encode])

theorem EncodesItsRow.sll (rd rs1 rs2 : Reg) : EncodesItsRow.Statement (.sll rd rs1 rs2) :=
  encodesItsRow_of_f7 (k := 29) rfl (by simp [encode]) (by simp [encode]) (by simp [encode]) (fun _ => by simp [encode])

theorem EncodesItsRow.slt (rd rs1 rs2 : Reg) : EncodesItsRow.Statement (.slt rd rs1 rs2) :=
  encodesItsRow_of_f7 (k := 30) rfl (by simp [encode]) (by simp [encode]) (by simp [encode]) (fun _ => by simp [encode])

theorem EncodesItsRow.sltu (rd rs1 rs2 : Reg) : EncodesItsRow.Statement (.sltu rd rs1 rs2) :=
  encodesItsRow_of_f7 (k := 31) rfl (by simp [encode]) (by simp [encode]) (by simp [encode]) (fun _ => by simp [encode])

theorem EncodesItsRow.xor (rd rs1 rs2 : Reg) : EncodesItsRow.Statement (.xor rd rs1 rs2) :=
  encodesItsRow_of_f7 (k := 32) rfl (by simp [encode]) (by simp [encode]) (by simp [encode]) (fun _ => by simp [encode])

theorem EncodesItsRow.srl (rd rs1 rs2 : Reg) : EncodesItsRow.Statement (.srl rd rs1 rs2) :=
  encodesItsRow_of_f7 (k := 33) rfl (by simp [encode]) (by simp [encode]) (by simp [encode]) (fun _ => by simp [encode])

theorem EncodesItsRow.sra (rd rs1 rs2 : Reg) : EncodesItsRow.Statement (.sra rd rs1 rs2) :=
  encodesItsRow_of_f7 (k := 34) rfl (by simp [encode]) (by simp [encode]) (by simp [encode]) (fun _ => by simp [encode])

theorem EncodesItsRow.or (rd rs1 rs2 : Reg) : EncodesItsRow.Statement (.or rd rs1 rs2) :=
  encodesItsRow_of_f7 (k := 35) rfl (by simp [encode]) (by simp [encode]) (by simp [encode]) (fun _ => by simp [encode])

theorem EncodesItsRow.and (rd rs1 rs2 : Reg) : EncodesItsRow.Statement (.and rd rs1 rs2) :=
  encodesItsRow_of_f7 (k := 36) rfl (by simp [encode]) (by simp [encode]) (by simp [encode]) (fun _ => by simp [encode])

theorem EncodesItsRow.fence (pred succ : FenceSet) : EncodesItsRow.Statement (.fence pred succ) :=
  encodesItsRow_of_f3 (k := 37) rfl (by simp [encode]) (by simp [encode]) (fun _ => by simp [encode, predField_pack, succField_pack])

theorem EncodesItsRow.fenceI : EncodesItsRow.Statement (.fenceI) :=
  encodesItsRow_of_f3 (k := 38) rfl (by simp [encode]) (by simp [encode]) (fun _ => by simp)

theorem EncodesItsRow.ecall : EncodesItsRow.Statement (.ecall) :=
  ⟨_, List.mem_of_getElem? (i := 39) rfl, rfl, by decide, fun _ => rfl⟩

theorem EncodesItsRow.ebreak : EncodesItsRow.Statement (.ebreak) :=
  ⟨_, List.mem_of_getElem? (i := 40) rfl, rfl, by decide, fun _ => rfl⟩

theorem EncodesItsRow.csrrw (rd : Reg) (csr : BitVec 12) (rs1 : Reg) : EncodesItsRow.Statement (.csrrw rd csr rs1) :=
  encodesItsRow_of_f3 (k := 41) rfl (by simp [encode]) (by simp [encode]) (fun _ => by simp [encode])

theorem EncodesItsRow.csrrs (rd : Reg) (csr : BitVec 12) (rs1 : Reg) : EncodesItsRow.Statement (.csrrs rd csr rs1) :=
  encodesItsRow_of_f3 (k := 42) rfl (by simp [encode]) (by simp [encode]) (fun _ => by simp [encode])

theorem EncodesItsRow.csrrc (rd : Reg) (csr : BitVec 12) (rs1 : Reg) : EncodesItsRow.Statement (.csrrc rd csr rs1) :=
  encodesItsRow_of_f3 (k := 43) rfl (by simp [encode]) (by simp [encode]) (fun _ => by simp [encode])

theorem EncodesItsRow.csrrwi (rd : Reg) (csr : BitVec 12) (zimm : BitVec 5) : EncodesItsRow.Statement (.csrrwi rd csr zimm) :=
  encodesItsRow_of_f3 (k := 44) rfl (by simp [encode]) (by simp [encode]) (fun _ => by simp [encode])

theorem EncodesItsRow.csrrsi (rd : Reg) (csr : BitVec 12) (zimm : BitVec 5) : EncodesItsRow.Statement (.csrrsi rd csr zimm) :=
  encodesItsRow_of_f3 (k := 45) rfl (by simp [encode]) (by simp [encode]) (fun _ => by simp [encode])

theorem EncodesItsRow.csrrci (rd : Reg) (csr : BitVec 12) (zimm : BitVec 5) : EncodesItsRow.Statement (.csrrci rd csr zimm) :=
  encodesItsRow_of_f3 (k := 46) rfl (by simp [encode]) (by simp [encode]) (fun _ => by simp [encode])

end Sys2Proof.Laws
end

