-- ==== Sys2Proof/Machine/Assembly.lean ====
section
/-! DEFINITION. The assembler text of an instruction (spec/30_encoding.md R123, R124): mnemonics in lower
case, operands separated by commas, the destination first, registers x0 to x31, CSRs by name. The
forms of R124 are the spec's general knowledge (G7; PRESUMED, log entry 18). No meaning depends on it. -/

namespace Sys2Proof.Machine

/-- A register's numeric name (R123). -/
def regText (r : Reg) : String := "x" ++ Nat.repr r.toNat

/-- A signed number in decimal. -/
def intText (n : Int) : String :=
  match n with
  | .ofNat k => Nat.repr k
  | .negSucc k => "-" ++ Nat.repr (k + 1)

/-- A CSR by name (R123), or its address where it has none. -/
def csrText (a : BitVec 12) : String :=
  match csrAt a with
  | some .cycle => "cycle"
  | some .time => "time"
  | some .instret => "instret"
  | some .cycleh => "cycleh"
  | some .timeh => "timeh"
  | some .instreth => "instreth"
  | none => Nat.repr a.toNat

/-- A set of FENCE: a subset of the letters iorw (R124). -/
def fenceSetText (f : FenceSet) : String :=
  (if f.i then "i" else "") ++ (if f.o then "o" else "") ++ (if f.r then "r" else "") ++ (if f.w then "w" else "")

/-- `rd, imm20` with imm20 an unsigned number (R124). -/
def upperText (name : String) (rd : Reg) (imm20 : BitVec 20) : String :=
  name ++ " " ++ regText rd ++ ", " ++ Nat.repr imm20.toNat

/-- `rd, rs1, rs2` (R124). -/
def threeText (name : String) (rd rs1 rs2 : Reg) : String :=
  name ++ " " ++ regText rd ++ ", " ++ regText rs1 ++ ", " ++ regText rs2

/-- `rd, rs1, imm` (R123). -/
def immediateText (name : String) (rd rs1 : Reg) (imm : Int) : String :=
  name ++ " " ++ regText rd ++ ", " ++ regText rs1 ++ ", " ++ intText imm

/-- `reg, offset(rs1)` of JALR, loads and stores (R124). -/
def memoryText (name : String) (r rs1 : Reg) (imm : BitVec 12) : String :=
  name ++ " " ++ regText r ++ ", " ++ intText imm.toInt ++ "(" ++ regText rs1 ++ ")"

/-- `rd, csr, operand` (R123). -/
def csrOperandsText (name : String) (rd : Reg) (csr : BitVec 12) (operand : String) : String :=
  name ++ " " ++ regText rd ++ ", " ++ csrText csr ++ ", " ++ operand

/-- The text of an instruction; a branch or jump shows its offset in place of a label. -/
def asm : Instr → String
  | .lui rd imm20 => upperText "lui" rd imm20
  | .auipc rd imm20 => upperText "auipc" rd imm20
  | .jal rd off => "jal " ++ regText rd ++ ", " ++ intText off.toInt
  | .jalr rd rs1 imm => memoryText "jalr" rd rs1 imm
  | .beq rs1 rs2 off => immediateText "beq" rs1 rs2 off.toInt
  | .bne rs1 rs2 off => immediateText "bne" rs1 rs2 off.toInt
  | .blt rs1 rs2 off => immediateText "blt" rs1 rs2 off.toInt
  | .bge rs1 rs2 off => immediateText "bge" rs1 rs2 off.toInt
  | .bltu rs1 rs2 off => immediateText "bltu" rs1 rs2 off.toInt
  | .bgeu rs1 rs2 off => immediateText "bgeu" rs1 rs2 off.toInt
  | .lb rd rs1 imm => memoryText "lb" rd rs1 imm
  | .lh rd rs1 imm => memoryText "lh" rd rs1 imm
  | .lw rd rs1 imm => memoryText "lw" rd rs1 imm
  | .lbu rd rs1 imm => memoryText "lbu" rd rs1 imm
  | .lhu rd rs1 imm => memoryText "lhu" rd rs1 imm
  | .sb rs2 rs1 imm => memoryText "sb" rs2 rs1 imm
  | .sh rs2 rs1 imm => memoryText "sh" rs2 rs1 imm
  | .sw rs2 rs1 imm => memoryText "sw" rs2 rs1 imm
  | .addi rd rs1 imm => immediateText "addi" rd rs1 imm.toInt
  | .slti rd rs1 imm => immediateText "slti" rd rs1 imm.toInt
  | .sltiu rd rs1 imm => immediateText "sltiu" rd rs1 imm.toInt
  | .xori rd rs1 imm => immediateText "xori" rd rs1 imm.toInt
  | .ori rd rs1 imm => immediateText "ori" rd rs1 imm.toInt
  | .andi rd rs1 imm => immediateText "andi" rd rs1 imm.toInt
  | .slli rd rs1 shamt => immediateText "slli" rd rs1 shamt.toNat
  | .srli rd rs1 shamt => immediateText "srli" rd rs1 shamt.toNat
  | .srai rd rs1 shamt => immediateText "srai" rd rs1 shamt.toNat
  | .add rd rs1 rs2 => threeText "add" rd rs1 rs2
  | .sub rd rs1 rs2 => threeText "sub" rd rs1 rs2
  | .sll rd rs1 rs2 => threeText "sll" rd rs1 rs2
  | .slt rd rs1 rs2 => threeText "slt" rd rs1 rs2
  | .sltu rd rs1 rs2 => threeText "sltu" rd rs1 rs2
  | .xor rd rs1 rs2 => threeText "xor" rd rs1 rs2
  | .srl rd rs1 rs2 => threeText "srl" rd rs1 rs2
  | .sra rd rs1 rs2 => threeText "sra" rd rs1 rs2
  | .or rd rs1 rs2 => threeText "or" rd rs1 rs2
  | .and rd rs1 rs2 => threeText "and" rd rs1 rs2
  | .fence pred succ => "fence " ++ fenceSetText pred ++ ", " ++ fenceSetText succ
  | .fenceI => "fence.i"
  | .ecall => "ecall"
  | .ebreak => "ebreak"
  | .csrrw rd csr rs1 => csrOperandsText "csrrw" rd csr (regText rs1)
  | .csrrs rd csr rs1 => csrOperandsText "csrrs" rd csr (regText rs1)
  | .csrrc rd csr rs1 => csrOperandsText "csrrc" rd csr (regText rs1)
  | .csrrwi rd csr zimm => csrOperandsText "csrrwi" rd csr (Nat.repr zimm.toNat)
  | .csrrsi rd csr zimm => csrOperandsText "csrrsi" rd csr (Nat.repr zimm.toNat)
  | .csrrci rd csr zimm => csrOperandsText "csrrci" rd csr (Nat.repr zimm.toNat)

end Sys2Proof.Machine
end

