-- ==== Sys2Proof/Tests/Slice0.lean ====
section
/-! SUPPORT. The model's own tests: the check of WellFormed, the opcode table and the words of
spec/95_test_vectors.md, one or two steps of each instruction with the results that file lists, and
for every obligation with hypotheses a state and operands that meet them. -/

namespace Sys2Proof.Tests

open Sys2Proof.Machine

/-! ### Well-formed terms -/

/-- Offsets that R110 and R112 cannot encode are refused. -/
theorem test_wellFormed_refuses_odd_offsets :
    [Instr.jal 1#5 3#21, .beq 1#5 2#5 5#13, .bne 1#5 2#5 5#13, .blt 1#5 2#5 5#13, .bge 1#5 2#5 5#13,
      .bltu 1#5 2#5 5#13, .bgeu 1#5 2#5 0x1FFF#13].map WellFormed =
    [false, false, false, false, false, false, false] := by decide

/-- Even offsets are accepted, the extreme ones too. -/
theorem test_wellFormed_accepts_even_offsets :
    [Instr.jal 1#5 0x100000#21, .jal 1#5 0xFFFFE#21, .beq 1#5 2#5 0x1000#13, .bgeu 1#5 2#5 0xFFE#13].map
      WellFormed = [true, true, true, true] := by decide

/-! ### The opcode table and decoding -/

/-- The rows built from fields are the rows that R118 prints. -/
theorem test_opcodeTable_is_R118 :
    opcodeTable.map (fun r => (r.mnemonic, r.mask, r.pattern)) =
    [("LUI", 0x0000007F#32, 0x00000037#32), ("AUIPC", 0x0000007F#32, 0x00000017#32),
     ("JAL", 0x0000007F#32, 0x0000006F#32), ("JALR", 0x0000707F#32, 0x00000067#32),
     ("BEQ", 0x0000707F#32, 0x00000063#32), ("BNE", 0x0000707F#32, 0x00001063#32),
     ("BLT", 0x0000707F#32, 0x00004063#32), ("BGE", 0x0000707F#32, 0x00005063#32),
     ("BLTU", 0x0000707F#32, 0x00006063#32), ("BGEU", 0x0000707F#32, 0x00007063#32),
     ("LB", 0x0000707F#32, 0x00000003#32), ("LH", 0x0000707F#32, 0x00001003#32),
     ("LW", 0x0000707F#32, 0x00002003#32), ("LBU", 0x0000707F#32, 0x00004003#32),
     ("LHU", 0x0000707F#32, 0x00005003#32), ("SB", 0x0000707F#32, 0x00000023#32),
     ("SH", 0x0000707F#32, 0x00001023#32), ("SW", 0x0000707F#32, 0x00002023#32),
     ("ADDI", 0x0000707F#32, 0x00000013#32), ("SLTI", 0x0000707F#32, 0x00002013#32),
     ("SLTIU", 0x0000707F#32, 0x00003013#32), ("XORI", 0x0000707F#32, 0x00004013#32),
     ("ORI", 0x0000707F#32, 0x00006013#32), ("ANDI", 0x0000707F#32, 0x00007013#32),
     ("SLLI", 0xFE00707F#32, 0x00001013#32), ("SRLI", 0xFE00707F#32, 0x00005013#32),
     ("SRAI", 0xFE00707F#32, 0x40005013#32), ("ADD", 0xFE00707F#32, 0x00000033#32),
     ("SUB", 0xFE00707F#32, 0x40000033#32), ("SLL", 0xFE00707F#32, 0x00001033#32),
     ("SLT", 0xFE00707F#32, 0x00002033#32), ("SLTU", 0xFE00707F#32, 0x00003033#32),
     ("XOR", 0xFE00707F#32, 0x00004033#32), ("SRL", 0xFE00707F#32, 0x00005033#32),
     ("SRA", 0xFE00707F#32, 0x40005033#32), ("OR", 0xFE00707F#32, 0x00006033#32),
     ("AND", 0xFE00707F#32, 0x00007033#32), ("FENCE", 0x0000707F#32, 0x0000000F#32),
     ("FENCE.I", 0x0000707F#32, 0x0000100F#32), ("ECALL", 0xFFFFFFFF#32, 0x00000073#32),
     ("EBREAK", 0xFFFFFFFF#32, 0x00100073#32), ("CSRRW", 0x0000707F#32, 0x00001073#32),
     ("CSRRS", 0x0000707F#32, 0x00002073#32), ("CSRRC", 0x0000707F#32, 0x00003073#32),
     ("CSRRWI", 0x0000707F#32, 0x00005073#32), ("CSRRSI", 0x0000707F#32, 0x00006073#32),
     ("CSRRCI", 0x0000707F#32, 0x00007073#32)] := by decide

/-- Words of 95_test_vectors.md sections 2.1 and 2.2. -/
def computationalWords : List (Nat × Instr) :=
  [(0xDEADC537, .lui 10#5 0xDEADC#20), (0xFFFFF397, .auipc 7#5 0xFFFFF#20),
   (0x80028393, .addi 7#5 5#5 0x800#12), (0x8002A393, .slti 7#5 5#5 0x800#12),
   (0x8002B393, .sltiu 7#5 5#5 0x800#12), (0x7FF2C393, .xori 7#5 5#5 0x7FF#12),
   (0x00F2E393, .ori 7#5 5#5 0x00F#12), (0x0F02F393, .andi 7#5 5#5 0x0F0#12),
   (0x01F29393, .slli 7#5 5#5 31#5), (0x0042D393, .srli 7#5 5#5 4#5), (0x41E2D393, .srai 7#5 5#5 30#5),
   (0x006283B3, .add 7#5 5#5 6#5), (0x406283B3, .sub 7#5 5#5 6#5), (0x006293B3, .sll 7#5 5#5 6#5),
   (0x0062A3B3, .slt 7#5 5#5 6#5), (0x006033B3, .sltu 7#5 0#5 6#5), (0x0062C3B3, .xor 7#5 5#5 6#5),
   (0x0062D3B3, .srl 7#5 5#5 6#5), (0x4062D3B3, .sra 7#5 5#5 6#5), (0x0062E3B3, .or 7#5 5#5 6#5),
   (0x0062F3B3, .and 7#5 5#5 6#5)]

/-- Words of 95_test_vectors.md sections 2.1 and 2.3. -/
def controlWords : List (Nat × Instr) :=
  [(0xFF9FF0EF, .jal 1#5 (BitVec.ofInt 21 (-8))), (0x7FFFF0EF, .jal 1#5 1048574#21),
   (0x800000EF, .jal 1#5 (BitVec.ofInt 21 (-1048576))), (0xFFC280E7, .jalr 1#5 5#5 0xFFC#12),
   (0x80000063, .beq 0#5 0#5 (BitVec.ofInt 13 (-4096))), (0x7E000FE3, .beq 0#5 0#5 4094#13),
   (0xFE419AE3, .bne 3#5 4#5 (BitVec.ofInt 13 (-12))), (0x0062C863, .blt 5#5 6#5 16#13),
   (0xFE62D8E3, .bge 5#5 6#5 (BitVec.ofInt 13 (-16))), (0x0062E863, .bltu 5#5 6#5 16#13),
   (0x0062F863, .bgeu 5#5 6#5 16#13)]

/-- Words of 95_test_vectors.md sections 2.1 and 2.4. -/
def memoryWords : List (Nat × Instr) :=
  [(0x80028383, .lb 7#5 5#5 0x800#12), (0x00229383, .lh 7#5 5#5 2#12), (0xFFC2A383, .lw 7#5 5#5 0xFFC#12),
   (0x7FF2C383, .lbu 7#5 5#5 0x7FF#12), (0x0032D383, .lhu 7#5 5#5 3#12),
   (0x000280A3, .sb 0#5 5#5 1#12), (0xFE629FA3, .sh 6#5 5#5 0xFFF#12), (0xFE62AE23, .sw 6#5 5#5 0xFFC#12)]

/-- Words of 95_test_vectors.md sections 2.5 to 2.7. -/
def systemWords : List (Nat × Instr) :=
  [(0x0210000F, .fence { i := false, o := false, r := true, w := false }
      { i := false, o := false, r := false, w := true }),
   (0x0000100F, .fenceI), (0x00000073, .ecall), (0x00100073, .ebreak), (0xC0029373, .csrrw 6#5 0xC00#12 5#5),
   (0xC80021F3, .csrrs 3#5 0xC80#12 0#5), (0xC002B373, .csrrc 6#5 0xC00#12 5#5),
   (0xC0005073, .csrrwi 0#5 0xC00#12 0#5), (0xC020E373, .csrrsi 6#5 0xC02#12 1#5),
   (0xC01FF373, .csrrci 6#5 0xC01#12 31#5)]

/-- Each word is the instruction, and the instruction's encoding is the word. -/
def Agrees (words : List (Nat × Instr)) : Bool :=
  words.all (fun p => decide (decodeTableWord 32 p.1 = some p.2) && decide ((encode p.2).toNat = p.1))

theorem test_decode_computational : Agrees computationalWords = true := by decide
theorem test_decode_control : Agrees controlWords = true := by decide
theorem test_decode_memory : Agrees memoryWords = true := by decide
theorem test_decode_system : Agrees systemWords = true := by decide

/-- Reserved fields of FENCE and FENCE.I are ignored (95_test_vectors.md section 2.5). -/
theorem test_decode_ignores_reserved_fence_fields :
    [0xFFFF808F, 0xFFFF9F8F].map (decodeTableWord 32) =
      [some (.fence { i := true, o := true, r := true, w := true } { i := true, o := true, r := true, w := true }),
       some .fenceI] := by decide

/-- The illegal words of 95_test_vectors.md section 2.7. -/
theorem test_decode_refuses_illegal_words :
    [0x00000000, 0xFFFFFFFF, 0x40031293, 0x02035293, 0x027302B3, 0x40629333, 0x00002063, 0x00003003, 0x00006003,
      0x00003023, 0x0000200F, 0x00009067, 0x00200073, 0x001000F3, 0x00008073, 0x00004073, 0x10500073,
      0x30200073, 0x0000000B, 0x0000001B, 0x00000002].all (fun w => decodeTableWord 32 w == none) = true := by
  decide

/-- The first byte in memory is inst[7:0] (R65); other lengths are refused (R100). -/
theorem test_decodeBytes :
    (match decodeBytes [0x93#8, 0x02#8, 0xF3#8, 0xFF#8] with
      | .ok i => decide (i = .addi 5#5 6#5 0xFFF#12)
      | .error _ => false) = true ∧
    (match decodeBytes [0x93#8, 0x02#8] with
      | .ok _ => false
      | .error e => decide (e = .wrongLength 2)) = true := by decide

/-! ### One step

The word runs from a state with these registers, this pc and these bytes. -/

/-- Registers written one by one over the reset state, with a pc. -/
def stateAt (pc : Word) (regs : List (Reg × Word)) : State :=
  regs.foldl (fun s p => s.setReg p.1 p.2) { State.reset with pc := pc }

/-- Bytes placed from an address on. -/
def withBytes (a : Word) (bytes : List Byte) (s : State) : State :=
  s.placeBytes (byteAddrs a bytes.length) bytes

/-- The state after the step that runs the word. -/
def after (w : Word) (s : State) : Option State :=
  match step (s.withFetchWord 32 w.toNat) with
  | .next t => some t
  | .fault _ => none
  | .refused _ => none

/-- What a register reads after the step. -/
def regAfter (r : Reg) (w : Word) (s : State) : Option Word := (after w s).map (fun t => t.reg r)

/-- The pc and instret after the step, and the hand-off. -/
def pcAfter (w : Word) (s : State) : Option (Word × DWord × Option Trap) :=
  (after w s).map (fun t => (t.pc, t.instret, t.handoff))

/-- Bytes of memory after the step. -/
def bytesAfter (a : Word) (n : Nat) (w : Word) (s : State) : Option (List (Option Byte)) :=
  (after w s).map (fun t => (byteAddrs a n).map t.mem.read)

/-- x5 = a. -/
def one (a : Word) : State := stateAt 0x1000#32 [(5#5, a)]

/-- x5 = a, x6 = b. -/
def two (a b : Word) : State := stateAt 0x1000#32 [(5#5, a), (6#5, b)]

theorem test_lui : regAfter 7#5 0x123453B7#32 State.reset = some 0x12345000#32 := by decide
theorem test_auipc_wraps : regAfter 7#5 0x00001397#32 (stateAt 0xFFFFF000#32 []) = some 0#32 := by decide
theorem test_auipc_reads_pc : regAfter 7#5 0x00000397#32 (stateAt 0x1230#32 []) = some 0x1230#32 := by decide
theorem test_addi_wraps : regAfter 7#5 0x7FF28393#32 (one 0xFFFFF801#32) = some 0#32 := by decide
theorem test_addi_x0_discards : regAfter 0#5 0x00528013#32 (one 1#32) = some 0#32 := by decide
theorem test_slti_negative : regAfter 7#5 0x8002A393#32 (one 0x80000000#32) = some 1#32 := by decide
theorem test_slti_equal : regAfter 7#5 0x0052A393#32 (one 5#32) = some 0#32 := by decide
theorem test_sltiu_sign_extends : regAfter 7#5 0x8002B393#32 (one 0xFFFFF7FF#32) = some 1#32 := by decide
theorem test_sltiu_equal : regAfter 7#5 0xFFF2B393#32 (one 0xFFFFFFFF#32) = some 0#32 := by decide
theorem test_xori_not : regAfter 7#5 0xFFF2C393#32 (one 0x12345678#32) = some 0xEDCBA987#32 := by decide
theorem test_ori : regAfter 7#5 0x8002E393#32 (one 0x12345678#32) = some 0xFFFFFE78#32 := by decide
theorem test_andi : regAfter 7#5 0x8002F393#32 (one 0x12345FFF#32) = some 0x12345800#32 := by decide
theorem test_slli_31 : regAfter 7#5 0x01F29393#32 (one 0x80000001#32) = some 0x80000000#32 := by decide
theorem test_srli_4 : regAfter 7#5 0x0042D393#32 (one 0xF000000F#32) = some 0x0F000000#32 := by decide
theorem test_srai_4 : regAfter 7#5 0x4042D393#32 (one 0xF000000F#32) = some 0xFF000000#32 := by decide
theorem test_srai_positive : regAfter 7#5 0x41E2D393#32 (one 0x40000000#32) = some 1#32 := by decide
theorem test_add_wraps : regAfter 7#5 0x006283B3#32 (two 0xFFFFFFFF#32 1#32) = some 0#32 := by decide
theorem test_sub_borrows : regAfter 7#5 0x406283B3#32 (two 0#32 1#32) = some 0xFFFFFFFF#32 := by decide
theorem test_sub_overflows : regAfter 7#5 0x406283B3#32 (two 0x80000000#32 1#32) = some 0x7FFFFFFF#32 := by decide
theorem test_slt : regAfter 7#5 0x0062A3B3#32 (two 0x80000000#32 0x7FFFFFFF#32) = some 1#32 := by decide
theorem test_slt_other : regAfter 7#5 0x0062A3B3#32 (two 0x7FFFFFFF#32 0x80000000#32) = some 0#32 := by decide
theorem test_sltu : regAfter 7#5 0x0062B3B3#32 (two 0xFFFFFFFF#32 1#32) = some 0#32 := by decide
theorem test_sltu_snez : regAfter 7#5 0x006033B3#32 (two 0#32 0x80000000#32) = some 1#32 := by decide
theorem test_and : regAfter 7#5 0x0062F3B3#32 (two 0xF0F0F0F0#32 0x0FF00FF0#32) = some 0x00F000F0#32 := by decide
theorem test_or : regAfter 7#5 0x0062E3B3#32 (two 0xF0F0F0F0#32 0x0FF00FF0#32) = some 0xFFF0FFF0#32 := by decide
theorem test_xor : regAfter 7#5 0x0062C3B3#32 (two 0xF0F0F0F0#32 0x0FF00FF0#32) = some 0xFF00FF00#32 := by decide
theorem test_sll_33 : regAfter 7#5 0x006293B3#32 (two 0x80000001#32 33#32) = some 2#32 := by decide
theorem test_sll_32 : regAfter 7#5 0x006293B3#32 (two 0x80000001#32 32#32) = some 0x80000001#32 := by decide
theorem test_srl_33 : regAfter 7#5 0x0062D3B3#32 (two 0x80000000#32 33#32) = some 0x40000000#32 := by decide
theorem test_srl_31 : regAfter 7#5 0x0062D3B3#32 (two 0x80000000#32 0xFFFFFFFF#32) = some 1#32 := by decide
theorem test_sra_33 : regAfter 7#5 0x4062D3B3#32 (two 0x80000000#32 33#32) = some 0xC0000000#32 := by decide
theorem test_sra_63 : regAfter 7#5 0x4062D3B3#32 (two 0x7FFFFFFF#32 63#32) = some 0#32 := by decide

theorem test_nop : pcAfter 0x00000013#32 (one 5#32) = some (0x1004#32, 1#64, none) := by decide

theorem test_beq_misaligned : pcAfter 0x7E000FE3#32 (one 0#32) =
    some (0x1000#32, 0#64, some { cause := .instructionAddressMisaligned, epc := 0x1000#32, info := some 0x1FFE#32 }) := by
  decide
theorem test_beq_back : pcAfter 0x80000063#32 (stateAt 0x2000#32 []) = some (0x1000#32, 1#64, none) := by decide
theorem test_bne_not_taken_ignores_target : pcAfter 0x7E629FE3#32 (two 0#32 0#32) = some (0x1004#32, 1#64, none) := by
  decide
theorem test_bne_taken : pcAfter 0x00629863#32 (two 5#32 6#32) = some (0x1010#32, 1#64, none) := by decide
theorem test_blt_taken : pcAfter 0x0062C863#32 (two 0xFFFFFFFF#32 1#32) = some (0x1010#32, 1#64, none) := by decide
theorem test_blt_equal : pcAfter 0x0062C863#32 (two 7#32 7#32) = some (0x1004#32, 1#64, none) := by decide
theorem test_bge_equal : pcAfter 0x0062D863#32 (two 7#32 7#32) = some (0x1010#32, 1#64, none) := by decide
theorem test_bge_wraps : pcAfter 0xFE62D8E3#32 (stateAt 8#32 []) = some (0xFFFFFFF8#32, 1#64, none) := by decide
theorem test_bltu_taken : pcAfter 0x0062E863#32 (two 1#32 0xFFFFFFFF#32) = some (0x1010#32, 1#64, none) := by decide
theorem test_bltu_unsigned : pcAfter 0x0062E863#32 (two 0x80000000#32 0x7FFFFFFF#32) = some (0x1004#32, 1#64, none) := by
  decide
theorem test_bgeu_taken : pcAfter 0x0062F863#32 (two 0x80000000#32 0x7FFFFFFF#32) = some (0x1010#32, 1#64, none) := by
  decide
theorem test_bgeu_not_taken : pcAfter 0x0062F863#32 (two 1#32 0xFFFFFFFF#32) = some (0x1004#32, 1#64, none) := by decide

theorem test_jal_wraps : (after 0x008000EF#32 (stateAt 0xFFFFFFFC#32 [])).map (fun t => (t.reg 1#5, t.pc)) =
    some (0#32, 4#32) := by decide
theorem test_jal_misaligned : (after 0x7FFFF0EF#32 (stateAt 0x100#32 [(1#5, 9#32)])).map (fun t => (t.reg 1#5, t.handoff)) =
    some (9#32, some { cause := .instructionAddressMisaligned, epc := 0x100#32, info := some 0x1000FE#32 }) := by decide
theorem test_jalr_same_register : (after 0x000282E7#32 (stateAt 0x200#32 [(5#5, 0x3000#32)])).map
    (fun t => (t.reg 5#5, t.pc)) = some (0x204#32, 0x3000#32) := by decide
theorem test_jalr_clears_bit_0 : pcAfter 0x001280E7#32 (one 0x1000#32) = some (0x1000#32, 1#64, none) := by decide

/-- Memory before each load of 95_test_vectors.md section 2.4. -/
def loadMemory (x5 : Word) : State :=
  withBytes 0x2000#32 [0x80#8, 0xFF#8, 0x7F#8, 0x01#8, 0xAA#8, 0xBB#8]
    (withBytes 0xFFFFFFFE#32 [0x11#8, 0x22#8, 0x33#8, 0x44#8] (stateAt 0x1000#32 [(5#5, x5)]))

theorem test_lw_misaligned : regAfter 7#5 0x0012A383#32 (loadMemory 0x2000#32) = some 0xAA017FFF#32 := by decide
theorem test_lw_wraps : regAfter 7#5 0xFFE2A383#32 (loadMemory 0#32) = some 0x44332211#32 := by decide
theorem test_lh_sign : regAfter 7#5 0x00029383#32 (loadMemory 0x2000#32) = some 0xFFFFFF80#32 := by decide
theorem test_lhu_zero : regAfter 7#5 0x0032D383#32 (loadMemory 0x2000#32) = some 0x0000AA01#32 := by decide
theorem test_lb_sign : regAfter 7#5 0x80028383#32 (loadMemory 0x2800#32) = some 0xFFFFFF80#32 := by decide
theorem test_lbu_zero : regAfter 7#5 0x7FF2C383#32 (loadMemory 0x1801#32) = some 0x80#32 := by decide

/-- Memory before each store of 95_test_vectors.md section 2.4. -/
def storeMemory (x5 x6 : Word) : State :=
  withBytes 0x3000#32 (List.replicate 6 0xEE#8) (two x5 x6)

theorem test_sw_misaligned : bytesAfter 0x3000#32 6 0x0062A0A3#32 (storeMemory 0x3000#32 0x11223344#32) =
    some [some 0xEE#8, some 0x44#8, some 0x33#8, some 0x22#8, some 0x11#8, some 0xEE#8] := by decide
theorem test_sh_wraps : bytesAfter 0xFFFFFFFF#32 2 0xFE629FA3#32 (storeMemory 0#32 0xA1B2C3D4#32) =
    some [some 0xD4#8, some 0xC3#8] := by decide
theorem test_sh : bytesAfter 0x3000#32 5 0x00629123#32 (storeMemory 0x3000#32 0x11223344#32) =
    some [some 0xEE#8, some 0xEE#8, some 0x44#8, some 0x33#8, some 0xEE#8] := by decide
theorem test_sb : bytesAfter 0x3000#32 3 0x000280A3#32 (storeMemory 0x3000#32 0#32) =
    some [some 0xEE#8, some 0#8, some 0xEE#8] := by decide

theorem test_fence : (after 0x0330000F#32 (one 5#32)).map (fun t => (t.pc, t.opLog)) = some (0x1004#32,
    [.fence { i := false, o := false, r := true, w := true } { i := false, o := false, r := true, w := true }]) := by
  decide
theorem test_fenceI : (after 0x0000100F#32 { one 5#32 with fetchView := { stale := [(0, [none])] } }).map
    (fun t => (t.pc, t.fetchView)) = some (0x1004#32, FetchView.empty) := by decide
theorem test_ecall : pcAfter 0x00000073#32 (one 5#32) =
    some (0x1000#32, 0#64, some { cause := .environmentCall, epc := 0x1000#32, info := none }) := by decide
theorem test_ebreak : pcAfter 0x00100073#32 (one 5#32) =
    some (0x1000#32, 0#64, some { cause := .breakpoint, epc := 0x1000#32, info := none }) := by decide

/-- The hand-off of a CSR instruction: IllegalInstruction with the word (R289). -/
def illegalAt (pc w : Word) : Option (Word × DWord × Option Trap) :=
  some (pc, 0#64, some { cause := .illegalInstruction, epc := pc, info := some w })

theorem test_csrrw : pcAfter 0xC0029373#32 (one 5#32) = illegalAt 0x1000#32 0xC0029373#32 := by decide
theorem test_csrrwi : pcAfter 0xC0005073#32 (one 5#32) = illegalAt 0x1000#32 0xC0005073#32 := by decide
theorem test_csrrs_register_holding_0 : pcAfter 0xC002A373#32 (one 0#32) = illegalAt 0x1000#32 0xC002A373#32 := by decide
theorem test_csrrs_reads_instreth : regAfter 5#5 0xC82022F3#32 { one 0#32 with instret := 0xFEDCBA9876543210#64 } =
    some 0xFEDCBA98#32 := by decide
theorem test_csrrc_writes : pcAfter 0xC002B373#32 (one 0#32) = illegalAt 0x1000#32 0xC002B373#32 := by decide
theorem test_csrrc_reads : regAfter 6#5 0xC0203373#32 { one 0#32 with instret := 0xFFFFFFFF#64 } =
    some 0xFFFFFFFF#32 := by decide
theorem test_csrrsi_reads : regAfter 6#5 0xC0206373#32 { one 0#32 with instret := 7#64 } = some 7#32 := by decide
theorem test_csrrsi_absent : pcAfter 0xC0306373#32 (one 0#32) = illegalAt 0x1000#32 0xC0306373#32 := by decide
theorem test_csrrci_writes : pcAfter 0xC01FF373#32 (one 0#32) = illegalAt 0x1000#32 0xC01FF373#32 := by decide
theorem test_csrrci_reads : regAfter 6#5 0xC0207373#32 { one 0#32 with instret := 7#64 } = some 7#32 := by decide

/-- The counter floors hold whatever is drawn: a draw below the floor gives the floor (R287). -/
theorem test_drawn : drawn 5#64 4#64 = 5#64 ∧ drawn 5#64 6#64 = 6#64 := by decide

/-- From reset with nothing placed the fetch meets a byte without a value (log entry 7). -/
theorem test_reset_fetches_nothing :
    (match step State.reset with
      | .fault r => decide (r = .unwrittenByte 0#32)
      | .next _ => false
      | .refused _ => false) = true := by decide

/-! ### Other names and texts -/

/-- The expansions of R125 with a word in 95_test_vectors.md. -/
theorem test_pseudo_words :
    [Pseudo.nop, Pseudo.seqz 7#5 5#5, Pseudo.not 7#5 5#5, Pseudo.snez 7#5 6#5, Pseudo.j (BitVec.ofInt 21 (-8)),
      Pseudo.rdcycle 5#5, Pseudo.rdcycleh 3#5, Pseudo.rdtime 5#5, Pseudo.rdtimeh 5#5, Pseudo.rdinstret 5#5,
      Pseudo.rdinstreth 5#5, Pseudo.mv 7#5 5#5].map encode =
    [0x00000013#32, 0x0012B393#32, 0xFFF2C393#32, 0x006033B3#32, 0xFF9FF06F#32, 0xC00022F3#32, 0xC80021F3#32,
      0xC01022F3#32, 0xC81022F3#32, 0xC02022F3#32, 0xC82022F3#32, 0x00028393#32] := by decide

/-- Forms of R123 and R124. -/
theorem test_asm :
    [Instr.addi 7#5 5#5 0xFFF#12, .lui 7#5 0xFFFFF#20, .lw 7#5 5#5 0xFFC#12, .sw 6#5 5#5 1#12,
      .bne 3#5 4#5 (BitVec.ofInt 13 (-12)), .csrrs 3#5 0xC80#12 0#5, .fenceI].map asm =
    ["addi x7, x5, -1", "lui x7, 1048575", "lw x7, -4(x5)", "sw x6, 1(x5)", "bne x3, x4, -12",
      "csrrs x3, cycleh, x0", "fence.i"] := by decide

/-! ### Witnesses

For each obligation with hypotheses, a state and operands that meet them, each clause at a boundary. -/

theorem witness_DecodeOfEncode : WellFormed (.beq 1#5 2#5 (BitVec.ofInt 13 (-4096))) = true ∧
    WellFormed (.jal 1#5 1048574#21) = true := by decide

theorem witness_EncodeOfDecode : decodeWord 0xFE419AE3#32 = .ok (.bne 3#5 4#5 (BitVec.ofInt 13 (-12))) ∧
    (0xFE419AE3#32).extractLsb' 0 7 ≠ 0x0F#7 := ⟨rfl, by decide⟩

theorem witness_OpcodeRows : ∃ row ∈ opcodeTable, row.fits 0x00000013#32 = true := by decide

theorem witness_IllegalWords : EncodesNothing 0x00000000#32 ∧ EncodesNothing 0x027302B3#32 ∧
    ¬ EncodesNothing 0x00000013#32 := by
  simp [EncodesNothing]

theorem witness_ReservedFenceFields : 0xFFFF808F#32 &&& 0x0000707F#32 = 0x0000000F#32 ∧
    0xFFFF9F8F#32 &&& 0x0000707F#32 = 0x0000100F#32 := by decide

/-- A word placed at the pc. -/
def placed (pc w : Word) : State := (stateAt pc []).withFetchWord 32 w.toNat

/-- The top of the address space: the four bytes of the instruction are the last ones. -/
theorem witness_StepRunsTheDecodedInstruction : (placed 0xFFFFFFFC#32 0x00000013#32).handoff = none ∧
    PlainFetch (placed 0xFFFFFFFC#32 0x00000013#32) ∧
    HoldsWord 0x00000013#32 (placed 0xFFFFFFFC#32 0x00000013#32) ∧
    decodeWord 0x00000013#32 = .ok (.addi 0#5 0#5 0#12) := by
  refine ⟨by decide, ?_, ?_, rfl⟩
  · simp only [PlainFetch, Accessible, NotIO]; decide
  · simp only [HoldsWord]; decide

theorem witness_IllegalWordIsHandedOff : (placed 0#32 0xFFFFFFFF#32).handoff = none ∧
    PlainFetch (placed 0#32 0xFFFFFFFF#32) ∧ HoldsWord 0xFFFFFFFF#32 (placed 0#32 0xFFFFFFFF#32) ∧
    EncodesNothing 0xFFFFFFFF#32 := by
  refine ⟨by decide, ?_, ?_, ?_⟩
  · simp only [PlainFetch, Accessible, NotIO]; decide
  · simp only [HoldsWord]; decide
  · exact .inl (by decide)

/-- Below 0x80000000 memory; from there on a device; from 0xC0000000 on nothing accessible. -/
def threeRegions : Platform where
  regions :=
    [{ base := 0, size := 0x80000000, fetch := true, load := true, store := true, io := false },
     { base := 0x80000000, size := 0x40000000, fetch := true, load := true, store := true, io := true }]

/-- A state over the three regions with x5 = a, x6 = b. -/
def mixed (a b : Word) : State :=
  withBytes 0x7FFFFFFC#32 [0x11#8, 0x22#8, 0x33#8, 0x84#8] { two a b with platform := threeRegions }

theorem witness_DeniedFetch : { mixed 0#32 0#32 with pc := 0xC0000000#32 }.handoff = none ∧
    ¬ Accessible .fetch 0xC0000000#32 4 { mixed 0#32 0#32 with pc := 0xC0000000#32 } := by
  simp only [Accessible]; decide

/-- A stale byte that held another value. -/
def stale : State := { placed 0#32 0x00000013#32 with fetchView := { stale := [(0, [some 0x93#8])] } }

theorem witness_StaleFetch : stale.handoff = none ∧ Accessible .fetch stale.pc 4 stale ∧ DrawnFetch stale := by
  refine ⟨by decide, ?_, ⟨0, by decide⟩⟩
  simp only [Accessible]; decide

/-- Two bytes of memory and two of the device: the word has a value whatever the device answers. -/
theorem witness_FetchOverBoth :
    let s := { mixed 0#32 0#32 with pc := 0x7FFFFFFE#32 }
    s.handoff = none ∧ Accessible .fetch s.pc 4 s ∧ DrawnFetch s ∧ FetchGives s 0 (some 0x33#8) ∧
    FetchGives s 1 (some 0x84#8) ∧ FetchGives s 2 (some (Config.deviceByte s.draws 2)) ∧
    FetchGives s 3 (some (Config.deviceByte s.draws 3)) := by
  refine ⟨by decide, ?_, ⟨2, by decide⟩, (fetchGives_iff ..).mpr (by decide), (fetchGives_iff ..).mpr (by decide),
    (fetchGives_iff ..).mpr (if_pos (by decide)), (fetchGives_iff ..).mpr (if_pos (by decide))⟩
  simp only [Accessible]; decide

/-- A stale byte that has a value in any case, and a last byte that has none. -/
theorem witness_StaleFetchOfUnwritten :
    let s := { withBytes 0#32 [1#8, 2#8, 3#8] State.reset with fetchView := { stale := [(0, [some 5#8])] } }
    s.handoff = none ∧ Accessible .fetch s.pc 4 s ∧ DrawnFetch s ∧ (∃ b, FetchGives s 0 (some b)) ∧
    FetchGives s 1 (some 2#8) ∧ FetchGives s 2 (some 3#8) ∧ FetchGives s 3 none := by
  refine ⟨by decide, ?_, ⟨0, by decide⟩, ?_, (fetchGives_iff ..).mpr (by decide), (fetchGives_iff ..).mpr (by decide),
    (fetchGives_iff ..).mpr (by decide)⟩
  · simp only [Accessible]; decide
  · rcases Nat.mod_two_eq_zero_or_one (Config.fetchChoice 0 0) with h | h
    · exact ⟨1#8, fun e => absurd e (by decide), fun _ => congrArg (fun n => [some 1#8, some 5#8][n]?) h⟩
    · exact ⟨5#8, fun e => absurd e (by decide), fun _ => congrArg (fun n => [some 1#8, some 5#8][n]?) h⟩

theorem witness_FetchFromDevice : { mixed 0#32 0#32 with pc := 0x80000000#32 }.handoff = none ∧
    Accessible .fetch 0x80000000#32 4 { mixed 0#32 0#32 with pc := 0x80000000#32 } ∧
    AllIO 0x80000000#32 4 { mixed 0#32 0#32 with pc := 0x80000000#32 } := by
  refine ⟨by decide, ?_, ?_⟩
  · simp only [Accessible]; decide
  · simp only [AllIO]; decide

/-- The last byte of the word holds no value. -/
theorem witness_FetchOfUnwritten : (withBytes 0#32 [1#8, 2#8, 3#8] State.reset).handoff = none ∧
    PlainFetch (withBytes 0#32 [1#8, 2#8, 3#8] State.reset) ∧ 3 < 4 ∧
    (∀ j < 3, (withBytes 0#32 [1#8, 2#8, 3#8] State.reset).mem.read (byteAddr 0#32 j) ≠ none) ∧
    (withBytes 0#32 [1#8, 2#8, 3#8] State.reset).mem.read (byteAddr 0#32 3) = none := by
  refine ⟨by decide, ?_, by decide, by decide, by decide⟩
  simp only [PlainFetch, Accessible, NotIO]; decide

theorem witness_HandOffGoesToTheEnvironment :
    ({ State.reset with handoff := some { cause := .breakpoint, epc := 0#32, info := none } } : State).handoff =
      some { cause := .breakpoint, epc := 0#32, info := none } := rfl

theorem witness_PlacedWordIsRunNext : decodeWord 0x00100073#32 = .ok .ebreak := rfl

theorem witness_EveryStepKeepsTheInvariant : Inv (placed 0xFFFFFFFC#32 0x00000013#32) ∧
    ∃ t, step (placed 0xFFFFFFFC#32 0x00000013#32) = .next t :=
  ⟨⟨by decide, by decide, by decide, fun _ h => by cases h⟩, _, rfl⟩

/-- One step that retires and one that hands off; also for the counters, the platform and instret. -/
theorem witness_EveryStepRetiresOrHandsOff : (placed 0#32 0x00000013#32).handoff = none ∧
    (∃ t, step (placed 0#32 0x00000013#32) = .next t ∧ t.handoff = none) ∧
    (placed 0#32 0x00000073#32).handoff = none ∧
    ∃ t, step (placed 0#32 0x00000073#32) = .next t ∧ t.handoff ≠ none :=
  ⟨rfl, ⟨_, rfl, rfl⟩, rfl, ⟨_, rfl, by decide⟩⟩

/-- A read of cycle, the step over which a counter may move. -/
theorem witness_CountersNeverRunBack : ∃ t, step (placed 0#32 0xC00022F3#32) = .next t := ⟨_, rfl⟩

theorem witness_OnlyStoresChangeMemory : (Instr.lw 7#5 5#5 0#12).mnemonic ∉ ["SB", "SH", "SW"] ∧
    ∃ t, exec (.lw 7#5 5#5 0#12) (loadMemory 0x2000#32) = .next t := ⟨by decide, _, rfl⟩

theorem witness_InstructionsRaiseOnlyTheirExceptions : (mixed 0xBFFFFFFE#32 0#32).handoff = none ∧
    ∃ t, exec (.sw 6#5 5#5 0#12) (mixed 0xBFFFFFFE#32 0#32) = .next t ∧
      t.handoff = some { cause := .storeAccessFault, epc := 0x1000#32, info := some 0xBFFFFFFE#32 } :=
  ⟨rfl, _, rfl, by decide⟩

/-- Both clauses: the widest even multiple of 4 and the widest even offset. -/
theorem witness_Jal : (BitVec.ofInt 32 ((0xFFFFFFFC#32).toInt + (0x100000#21).toInt)).toNat % 4 = 0 ∧
    (BitVec.ofInt 32 ((0xFFFFFFFC#32).toInt + (1048574#21).toInt)).toNat % 4 ≠ 0 := by decide

/-- Both clauses: an odd sum that wraps, and a target with bit 1 set. -/
theorem witness_Jalr :
    ((0x00000000#32).toNat = (BitVec.ofInt 32 ((0xFFFFFFFF#32).toInt + (2#12).toInt)).toNat / 2 * 2 ∧
      (0x00000000#32).getLsbD 1 = false) ∧
    ((0xFFFFFFFE#32).toNat = (BitVec.ofInt 32 ((0xFFFFFFFF#32).toInt + (0#12).toInt)).toNat / 2 * 2 ∧
      (0xFFFFFFFE#32).getLsbD 1 = true) := by decide

/-- The targets of the two clauses of a taken branch, and operands on both sides of each condition. -/
theorem witness_Branches :
    (0xFFFFF000#32 = BitVec.ofInt 32 ((0#32).toInt + (BitVec.ofInt 13 (-4096)).toInt) ∧
      (0xFFFFF000#32).toNat % 4 = 0) ∧
    (0xFFE#32 = BitVec.ofInt 32 ((0#32).toInt + (4094#13).toInt) ∧ (0xFFE#32).toNat % 4 ≠ 0) ∧
    (0x80000000#32).toInt < (0x7FFFFFFF#32).toInt ∧ ¬ (0x80000000#32).toNat < (0x7FFFFFFF#32).toNat ∧
    ¬ (0x7FFFFFFF#32).toInt < (0x7FFFFFFF#32).toInt := by decide

/-- LB at the top of the address space, LH and LW across it. -/
theorem witness_LoadsReadMemory :
    let s := loadMemory 0#32
    effectiveAddr 5#5 0xFFF#12 s = 0xFFFFFFFF#32 ∧ effectiveAddr 5#5 0xFFE#12 s = 0xFFFFFFFE#32 ∧
    Accessible .load 0xFFFFFFFF#32 1 s ∧ NotIO 0xFFFFFFFF#32 1 s ∧
    s.mem.read (byteAddr 0xFFFFFFFF#32 0) = some 0x22#8 ∧
    Accessible .load 0xFFFFFFFF#32 2 s ∧ NotIO 0xFFFFFFFF#32 2 s ∧
    s.mem.read (byteAddr 0xFFFFFFFF#32 1) = some 0x33#8 ∧
    Accessible .load 0xFFFFFFFE#32 4 s ∧ NotIO 0xFFFFFFFE#32 4 s ∧
    s.mem.read (byteAddr 0xFFFFFFFE#32 0) = some 0x11#8 ∧ s.mem.read (byteAddr 0xFFFFFFFE#32 1) = some 0x22#8 ∧
    s.mem.read (byteAddr 0xFFFFFFFE#32 2) = some 0x33#8 ∧ s.mem.read (byteAddr 0xFFFFFFFE#32 3) = some 0x44#8 := by
  simp only [Accessible, NotIO]; decide

/-- The first byte that is not accessible, and accesses of which only the last byte is not. -/
theorem witness_DeniedAccesses :
    effectiveAddr 5#5 1#12 (mixed 0xBFFFFFFF#32 0#32) = 0xC0000000#32 ∧
    effectiveAddr 5#5 0#12 (mixed 0xBFFFFFFF#32 0#32) = 0xBFFFFFFF#32 ∧
    effectiveAddr 5#5 0xFFE#12 (mixed 0xBFFFFFFF#32 0#32) = 0xBFFFFFFD#32 ∧
    ¬ Accessible .load 0xC0000000#32 1 (mixed 0xBFFFFFFF#32 0#32) ∧
    ¬ Accessible .load 0xBFFFFFFF#32 2 (mixed 0xBFFFFFFF#32 0#32) ∧
    ¬ Accessible .load 0xBFFFFFFD#32 4 (mixed 0xBFFFFFFF#32 0#32) ∧
    ¬ Accessible .store 0xC0000000#32 1 (mixed 0xBFFFFFFF#32 0#32) ∧
    ¬ Accessible .store 0xBFFFFFFF#32 2 (mixed 0xBFFFFFFF#32 0#32) ∧
    ¬ Accessible .store 0xBFFFFFFD#32 4 (mixed 0xBFFFFFFF#32 0#32) := by
  simp only [Accessible]; decide

/-- The last bytes of the device. -/
theorem witness_DeviceAccesses :
    effectiveAddr 5#5 3#12 (mixed 0xBFFFFFFC#32 0#32) = 0xBFFFFFFF#32 ∧
    effectiveAddr 5#5 2#12 (mixed 0xBFFFFFFC#32 0#32) = 0xBFFFFFFE#32 ∧
    effectiveAddr 5#5 0#12 (mixed 0xBFFFFFFC#32 0#32) = 0xBFFFFFFC#32 ∧
    Accessible .load 0xBFFFFFFF#32 1 (mixed 0xBFFFFFFC#32 0#32) ∧ AllIO 0xBFFFFFFF#32 1 (mixed 0xBFFFFFFC#32 0#32) ∧
    Accessible .load 0xBFFFFFFE#32 2 (mixed 0xBFFFFFFC#32 0#32) ∧ AllIO 0xBFFFFFFE#32 2 (mixed 0xBFFFFFFC#32 0#32) ∧
    Accessible .load 0xBFFFFFFC#32 4 (mixed 0xBFFFFFFC#32 0#32) ∧ AllIO 0xBFFFFFFC#32 4 (mixed 0xBFFFFFFC#32 0#32) ∧
    Accessible .store 0xBFFFFFFF#32 1 (mixed 0xBFFFFFFC#32 0#32) ∧
    Accessible .store 0xBFFFFFFE#32 2 (mixed 0xBFFFFFFC#32 0#32) ∧
    Accessible .store 0xBFFFFFFC#32 4 (mixed 0xBFFFFFFC#32 0#32) := by
  simp only [Accessible, AllIO]; decide

/-- A halfword and a word of which the first bytes are memory and the others the device's. -/
theorem witness_AccessesOverBoth :
    let s := mixed 0x7FFFFFFE#32 0#32
    effectiveAddr 5#5 1#12 s = 0x7FFFFFFF#32 ∧ effectiveAddr 5#5 0#12 s = 0x7FFFFFFE#32 ∧
    Accessible .load 0x7FFFFFFF#32 2 s ∧ PartlyIO 0x7FFFFFFF#32 2 s ∧ Accessible .store 0x7FFFFFFF#32 2 s ∧
    GivesByte 0x7FFFFFFF#32 0 0x84#8 s ∧ GivesByte 0x7FFFFFFF#32 1 (Config.deviceByte s.draws 1) s ∧
    Accessible .load 0x7FFFFFFE#32 4 s ∧ PartlyIO 0x7FFFFFFE#32 4 s ∧ Accessible .store 0x7FFFFFFE#32 4 s ∧
    GivesByte 0x7FFFFFFE#32 0 0x33#8 s ∧ GivesByte 0x7FFFFFFE#32 1 0x84#8 s ∧
    GivesByte 0x7FFFFFFE#32 2 (Config.deviceByte s.draws 2) s ∧
    GivesByte 0x7FFFFFFE#32 3 (Config.deviceByte s.draws 3) s := by
  simp only [Accessible, PartlyIO, GivesByte]
  refine ⟨by decide, by decide, by decide, by decide, by decide, ⟨fun h => absurd h (by decide), by decide⟩,
    ⟨fun _ => trivial, fun h => absurd h (by decide)⟩, by decide, by decide, by decide,
    ⟨fun h => absurd h (by decide), by decide⟩, ⟨fun h => absurd h (by decide), by decide⟩,
    ⟨fun _ => trivial, fun h => absurd h (by decide)⟩, ⟨fun _ => trivial, fun h => absurd h (by decide)⟩⟩

/-- SB at the top of the address space, SH and SW across it. -/
theorem witness_StoresWriteMemory :
    let s := two 0#32 0xA1B2C3D4#32
    effectiveAddr 5#5 0xFFF#12 s = 0xFFFFFFFF#32 ∧ effectiveAddr 5#5 0xFFE#12 s = 0xFFFFFFFE#32 ∧
    Accessible .store 0xFFFFFFFF#32 1 s ∧ NotIO 0xFFFFFFFF#32 1 s ∧
    Accessible .store 0xFFFFFFFF#32 2 s ∧ NotIO 0xFFFFFFFF#32 2 s ∧
    Accessible .store 0xFFFFFFFE#32 4 s ∧ NotIO 0xFFFFFFFE#32 4 s := by
  simp only [Accessible, NotIO]; decide

/-- The first byte of LB, the last of LH and of LW, holds no value. -/
theorem witness_LoadOfUnwritten :
    let s := withBytes 0x2000#32 [1#8, 2#8, 3#8] (one 0x2000#32)
    let a := 0x2003#32
    let b := 0x2002#32
    let c := 0x2000#32
    effectiveAddr 5#5 3#12 s = a ∧ effectiveAddr 5#5 2#12 s = b ∧ effectiveAddr 5#5 0#12 s = c ∧
    s.mem.read (byteAddr a 0) = none ∧ Accessible .load a 1 s ∧ NotIO a 1 s ∧
    (∀ j < 1, s.mem.read (byteAddr b j) ≠ none) ∧ s.mem.read (byteAddr b 1) = none ∧
    Accessible .load b 2 s ∧ NotIO b 2 s ∧
    (∀ j < 3, s.mem.read (byteAddr c j) ≠ none) ∧ s.mem.read (byteAddr c 3) = none ∧
    Accessible .load c 4 s ∧ NotIO c 4 s := by
  simp only [Accessible, NotIO]; decide

/-- A word whose first byte is the device's and whose second holds no value. -/
theorem witness_LoadOfUnwrittenBesideDevice :
    let s := { one 1#32 with platform :=
      { regions := { base := 0, size := 2, fetch := true, load := true, store := true, io := true } ::
        Config.resetPlatform.regions } }
    effectiveAddr 5#5 0#12 s = 1#32 ∧ (∀ j < 1, s.platform.isIO (byteAddr 1#32 j) = true) ∧
    s.platform.isIO (byteAddr 1#32 1) = false ∧ s.mem.read (byteAddr 1#32 1) = none ∧
    Accessible .load 1#32 2 s ∧ Accessible .load 1#32 4 s := by
  simp only [Accessible]; decide

/-- A store and loads across the top of the address space. -/
theorem witness_LoadAfterStore :
    let s := two 0xFFFFFFFE#32 0x11223344#32
    effectiveAddr 5#5 0#12 s = 0xFFFFFFFE#32 ∧ Accessible .store 0xFFFFFFFE#32 4 s ∧
    Accessible .load 0xFFFFFFFE#32 4 s ∧ NotIO 0xFFFFFFFE#32 4 s ∧
    effectiveAddr 5#5 2#12 s = byteAddr 0xFFFFFFFE#32 2 := by
  simp only [Accessible, NotIO]; decide

/-- FENCE w, r between a store and the load that the next step of the run does. -/
theorem witness_FenceOrders :
    let s := { withBytes 0x1004#32 [0x83#8, 0xC3#8, 0x02#8, 0x00#8] (loadMemory 0x2000#32) with
      opLog := [.store memoryWrite 0x3000#32 [1#8]] }
    let w : FenceSet := { i := false, o := false, r := false, w := true }
    let r : FenceSet := { i := false, o := false, r := true, w := false }
    s.opLog[0]? = some (.store memoryWrite 0x3000#32 [1#8]) ∧
    (MemOp.store memoryWrite 0x3000#32 [1#8]).classes.meets w = true ∧
    (MemOp.load memoryRead 0x2000#32 [0x80#8]).classes.meets r = true ∧
    ∃ t u, exec (.fence w r) s = .next t ∧ StepsTo 1 t u ∧
      u.opLog = [.load memoryRead 0x2000#32 [0x80#8]] ++ t.opLog :=
  ⟨rfl, by decide, by decide, _, _, rfl, ⟨_, rfl, rfl⟩, by decide⟩

/-- A log whose one FENCE has an empty predecessor set. -/
theorem witness_EmptyFences : ∀ pred succ : FenceSet,
    MemOp.fence pred succ ∈ [MemOp.load memoryRead 0#32 [1#8],
      .fence { i := false, o := false, r := false, w := false } { i := true, o := true, r := true, w := true },
      .store memoryWrite 4#32 [1#8]] →
    pred = { i := false, o := false, r := false, w := false } ∨
    succ = { i := false, o := false, r := false, w := false } := by
  intro pred succ h
  simp only [List.mem_cons, List.not_mem_nil, or_false, MemOp.fence.injEq, reduceCtorEq, false_or] at h
  exact .inl h.1

/-- The stored word stands across the top of the address space from the store. -/
theorem witness_StoredInstruction :
    let s := stateAt 0xFFFFFFF8#32 [(5#5, 0#32), (6#5, 0x00100073#32)]
    s.handoff = none ∧ effectiveAddr 5#5 0#12 s = s.pc + 8#32 ∧ Accessible .store (s.pc + 8#32) 4 s ∧
    Accessible .fetch (s.pc + 8#32) 4 s ∧ NotIO (s.pc + 8#32) 4 s ∧ decodeWord (s.reg 6#5) = .ok .ebreak := by
  refine ⟨by decide, by decide, ?_, ?_, ?_, rfl⟩
  · simp only [Accessible]; decide
  · simp only [Accessible]; decide
  · simp only [NotIO]; decide

theorem witness_Csrs : Instr.csrrci 6#5 0xC02#12 0#5 ∈ pureReads 6#5 0xC02#12 ∧ (1#5 : Reg) ≠ 0#5 ∧
    0xC03#12 ∉ [0xC00#12, 0xC01#12, 0xC02#12, 0xC80#12, 0xC81#12, 0xC82#12] := by decide

theorem witness_CounterSequences : (3#5 : Reg) ≠ 0#5 ∧ (2#5 : Reg) ≠ 0#5 ∧ (4#5 : Reg) ≠ 0#5 ∧
    (3#5 : Reg) ≠ 2#5 ∧ (3#5 : Reg) ≠ 4#5 ∧ (2#5 : Reg) ≠ 4#5 := by decide

end Sys2Proof.Tests
end

section
/-! SUPPORT. The integer computational instructions (spec/40_integer_computational.md): what writing a
result leaves as it was, the arithmetic of the operand forms, and the statements of the family. -/

namespace Sys2Proof.Machine

/-! ### Writing a result (R21, R22, R25, R150) -/

/-- An instruction that ends in `writeResult` changes rd, the pc and instret, and nothing else. Every
instruction of this family does, by its arm of `exec`, so `rfl` gives the hypothesis. -/
theorem writesRegister_of_exec {i : Instr} {rd : Reg} {v : Word} {s : State}
    (h : exec i s = writeResult rd v s) : WritesRegister i rd v s := by
  refine ⟨(s.setReg rd v).retire s.nextPc, h, ?value, ?completed, ?regs, ?bytes, ?timers, ?surroundings⟩
  case value => simp
  case completed => simp [Completed, State.nextPc]
  case regs =>
    intro r hr
    rw [State.retire_reg, State.reg_setReg_ne s rd v (List.ne_of_not_mem_cons hr)]
  case bytes => intro a _; simp
  case timers => simp [SameTimers]
  case surroundings => simp [SameSurroundings]

/-! ### Operands -/

/-- The immediate of R108 is the integer that its 12 bits stand for. -/
theorem immWord_eq_ofInt (imm : BitVec 12) : immWord imm = BitVec.ofInt 32 imm.toInt := rfl

@[simp] theorem immWord_toInt (imm : BitVec 12) : (immWord imm).toInt = imm.toInt :=
  BitVec.toInt_signExtend_of_le (by decide)

/-- The upper immediate of R111 is its field times 2^12. -/
theorem upperWord_eq_ofNat (imm20 : BitVec 20) : upperWord imm20 = BitVec.ofNat 32 (imm20.toNat * 4096) := by
  apply BitVec.eq_of_toNat_eq
  have := imm20.isLt
  rw [upperWord, BitVec.toNat_append, BitVec.toNat_ofNat, BitVec.toNat_ofNat, Nat.shiftLeft_eq,
    Nat.zero_mod, Nat.or_zero]
  omega

@[simp] theorem shiftAmount_toNat (v : Word) : (shiftAmount v).toNat = v.toNat % 32 :=
  BitVec.toNat_setWidth 5 v

/-! ### Results as numbers -/

theorem add_eq_ofInt (a b : Word) : a + b = BitVec.ofInt 32 (a.toInt + b.toInt) := by
  rw [BitVec.ofInt_add, BitVec.ofInt_toInt, BitVec.ofInt_toInt]

theorem sub_eq_ofInt (a b : Word) : a - b = BitVec.ofInt 32 (a.toInt - b.toInt) := by
  rw [Int.sub_eq_add_neg, BitVec.ofInt_add, BitVec.ofInt_neg, BitVec.ofInt_toInt, BitVec.ofInt_toInt,
    BitVec.sub_eq_add_neg]

theorem truthWord_lessSigned (a b : Word) :
    truthWord (lessSigned a b) = if a.toInt < b.toInt then 1#32 else 0#32 := by
  simp [truthWord, lessSigned]

theorem truthWord_lessUnsigned (a b : Word) :
    truthWord (lessUnsigned a b) = if a.toNat < b.toNat then 1#32 else 0#32 := by
  simp [truthWord, lessUnsigned]

/-- A left shift multiplies by a power of two, modulo 2^32. -/
theorem shiftLeft_eq_ofNat (a : Word) (k : BitVec 5) :
    shiftLeft a k = BitVec.ofNat 32 (a.toNat * 2 ^ k.toNat) := by
  apply BitVec.eq_of_toNat_eq
  rw [shiftLeft, BitVec.toNat_shiftLeft, BitVec.toNat_ofNat, Nat.shiftLeft_eq]

/-- A logical right shift divides the natural number, which stays below 2^32. -/
theorem shiftRightLogical_eq_ofNat (a : Word) (k : BitVec 5) :
    shiftRightLogical a k = BitVec.ofNat 32 (a.toNat / 2 ^ k.toNat) := by
  apply BitVec.eq_of_toNat_eq
  have hlt : a.toNat / 2 ^ k.toNat < 2 ^ 32 := (Nat.div_le_self ..).trans_lt a.isLt
  rw [shiftRightLogical, BitVec.toNat_ushiftRight, BitVec.toNat_ofNat, Nat.shiftRight_eq_div_pow,
    Nat.mod_eq_of_lt hlt]

/-- An arithmetic right shift divides the signed number, rounding toward minus infinity (R159). -/
theorem shiftRightArith_eq_ofInt (a : Word) (k : BitVec 5) :
    shiftRightArith a k = BitVec.ofInt 32 (a.toInt / 2 ^ k.toNat) := by
  rw [shiftRightArith, BitVec.sshiftRight, Int.shiftRight_eq_div_pow, Int.natCast_pow, Int.cast_ofNat_Int]

/-! ### The statements of the family -/

/-- Settles O23: the sum of the words is that of their signed numbers, modulo 2^32. -/
theorem addiAddsTheImmediate : Obligations.AddiAddsTheImmediate := by
  intro s rd rs1 imm
  rw [← immWord_toInt imm, ← add_eq_ofInt]
  exact writesRegister_of_exec rfl

/-- Settles O24: sign extension keeps the signed number, which SLTI compares; SLTIU compares the extended
word as a natural number. -/
theorem immediateCompares : Obligations.ImmediateCompares := by
  intro s rd rs1 imm
  refine ⟨?slti, ?sltiu⟩
  case slti =>
    rw [← immWord_toInt imm, ← truthWord_lessSigned]
    exact writesRegister_of_exec rfl
  case sltiu =>
    rw [← immWord_eq_ofInt, ← truthWord_lessUnsigned]
    exact writesRegister_of_exec rfl

/-- Settles O25: the operations act on the words, and the immediate is sign-extended to one. -/
theorem immediateLogic : Obligations.ImmediateLogic := by
  intro s rd rs1 imm
  rw [← immWord_eq_ofInt]
  exact ⟨writesRegister_of_exec rfl, writesRegister_of_exec rfl, writesRegister_of_exec rfl⟩

/-- Settles O26: each shift is arithmetic with a power of two. -/
theorem immediateShifts : Obligations.ImmediateShifts := by
  intro s rd rs1 shamt
  rw [← shiftLeft_eq_ofNat, ← shiftRightLogical_eq_ofNat, ← shiftRightArith_eq_ofInt]
  exact ⟨writesRegister_of_exec rfl, writesRegister_of_exec rfl, writesRegister_of_exec rfl⟩

/-- Settles O27: the upper immediate is the field times 2^12, and AUIPC adds it modulo 2^32. -/
theorem upperImmediates : Obligations.UpperImmediates := by
  intro s rd imm20
  rw [BitVec.ofNat_add, BitVec.ofNat_toNat, BitVec.setWidth_eq, ← upperWord_eq_ofNat]
  exact ⟨writesRegister_of_exec rfl, writesRegister_of_exec rfl⟩

/-- Settles O28: sum and difference of words are those of their signed numbers, modulo 2^32. -/
theorem registerSums : Obligations.RegisterSums := by
  intro s rd rs1 rs2
  rw [← add_eq_ofInt, ← sub_eq_ofInt]
  exact ⟨writesRegister_of_exec rfl, writesRegister_of_exec rfl⟩

/-- Settles O29: the truth word of each comparison is 1 or 0. -/
theorem registerCompares : Obligations.RegisterCompares := by
  intro s rd rs1 rs2
  rw [← truthWord_lessSigned, ← truthWord_lessUnsigned]
  exact ⟨writesRegister_of_exec rfl, writesRegister_of_exec rfl⟩

/-- Settles O30: the operations act on the words of the registers. -/
theorem registerLogic : Obligations.RegisterLogic := fun _ _ _ _ =>
  ⟨writesRegister_of_exec rfl, writesRegister_of_exec rfl, writesRegister_of_exec rfl⟩

/-- Settles O31: the shifts by an immediate's amount, with the amount x[rs2] modulo 32. -/
theorem registerShifts : Obligations.RegisterShifts := by
  intro s rd rs1 rs2
  rw [← shiftAmount_toNat, ← shiftLeft_eq_ofNat, ← shiftRightLogical_eq_ofNat, ← shiftRightArith_eq_ofInt]
  exact ⟨writesRegister_of_exec rfl, writesRegister_of_exec rfl, writesRegister_of_exec rfl⟩

/-- Settles O6: each word is fitted by one row of the table, whose fields give the instruction. -/
theorem sampleWordsDecodeAsListed : Obligations.SampleWordsDecodeAsListed :=
  ⟨rfl, rfl, rfl, rfl, rfl, rfl, rfl, rfl, rfl⟩

end Sys2Proof.Machine
end

section
/-! SUPPORT. The opcode table as a whole (spec/30_encoding.md R117 to R120): its rows are disjoint, so decoding
finds the row that fits; a decoded word is packed again from its fields; and the words that no row fits. -/

namespace Sys2Proof

/-! ### Decoding finds the row that fits (R117) -/

/-- Two rows ask for different bits under a mask that both have. -/
def Row.clashes (a b : Row) : Bool := a.pattern &&& b.mask != b.pattern &&& a.mask

theorem Row.clashes_symm {a b : Row} (h : a.clashes b = true) : b.clashes a = true := by
  simp only [Row.clashes, bne_iff_ne] at h ⊢
  exact h.symm

/-- Rows that clash fit no common word. -/
theorem Row.not_fits_of_clashes {a b : Row} (h : a.clashes b = true) {w : Word} (ha : a.fits w = true) :
    b.fits w ≠ true := by
  intro hb
  simp only [Row.fits, beq_iff_eq] at ha hb
  simp only [Row.clashes, bne_iff_ne, ← ha, ← hb] at h
  exact h (by ac_rfl)

theorem opcodeTable_pairwise_clashes : opcodeTable.Pairwise (fun a b => a.clashes b = true) := by
  decide

/-- At most one row of the table fits a word. -/
theorem row_eq_of_fits {a b : Row} (ha : a ∈ opcodeTable) (hb : b ∈ opcodeTable) {w : Word}
    (fa : a.fits w = true) (fb : b.fits w = true) : a = b := by
  by_contra hne
  have : Std.Symm (fun a b : Row => a.clashes b = true) := ⟨fun _ _ => Row.clashes_symm⟩
  have hc : a.clashes b = true := opcodeTable_pairwise_clashes.forall ha hb hne
  exact Row.not_fits_of_clashes hc fa fb

theorem decodeWord_of_find {w : Word} {row : Row} (h : opcodeTable.find? (fun r => r.fits w) = some row) :
    row ∈ opcodeTable ∧ row.fits w = true ∧ decodeWord w = .ok (row.build w) :=
  ⟨List.mem_of_find?_eq_some h, List.find?_some (p := fun r : Row => r.fits w) h, by simp [decodeWord, h]⟩

theorem decodeWord_of_find_none {w : Word} (h : opcodeTable.find? (fun row => row.fits w) = none) :
    decodeWord w = .error (.illegalInstruction w) := by
  simp [decodeWord, h]

theorem decodeWord_of_fits {row : Row} (hrow : row ∈ opcodeTable) {w : Word} (hf : row.fits w = true) :
    decodeWord w = .ok (row.build w) := by
  obtain ⟨found, hfind⟩ : ∃ found, opcodeTable.find? (fun row => row.fits w) = some found :=
    Option.isSome_iff_exists.mp (List.find?_isSome.mpr ⟨row, hrow, hf⟩)
  obtain ⟨hmem, hfits, hdec⟩ := decodeWord_of_find hfind
  rwa [row_eq_of_fits hmem hrow hfits hf] at hdec

/-- Everything the decoder can answer. -/
theorem decodeWord_cases (w : Word) :
    (∃ row ∈ opcodeTable, row.fits w = true ∧ decodeWord w = .ok (row.build w)) ∨
    ((∀ row ∈ opcodeTable, row.fits w ≠ true) ∧ decodeWord w = .error (.illegalInstruction w)) := by
  cases h : opcodeTable.find? (fun row => row.fits w) with
  | some row =>
    obtain ⟨hmem, hfits, hdec⟩ := decodeWord_of_find h
    exact .inl ⟨row, hmem, hfits, hdec⟩
  | none => exact .inr ⟨List.find?_eq_none.mp h, decodeWord_of_find_none h⟩

/-! ### The fields of a word packed again (R102 to R107) -/

section Repacked

variable (w : Word)

theorem immSField_bit (k : Nat) (hk : k < 12) :
    (immSField w)[k] = if k < 5 then w.getLsbD (k + 7) else w.getLsbD (k + 20) := by
  rw [← BitVec.getLsbD_eq_getElem]
  unfold immSField
  repeat rw [BitVec.getLsbD_append]
  interval_cases k <;> simp

theorem immBField_bit (k : Nat) (hk : k < 13) : (immBField w)[k] =
      if k < 1 then false else
      if k < 5 then w.getLsbD (k + 7) else
      if k < 11 then w.getLsbD (k + 20) else
      if k < 12 then w.getLsbD 7 else
      w.getLsbD 31 := by
  rw [← BitVec.getLsbD_eq_getElem]
  unfold immBField
  repeat rw [BitVec.getLsbD_append]
  interval_cases k <;> simp

theorem immJField_bit (k : Nat) (hk : k < 21) : (immJField w)[k] =
      if k < 1 then false else
      if k < 11 then w.getLsbD (k + 20) else
      if k < 12 then w.getLsbD 20 else
      if k < 20 then w.getLsbD k else
      w.getLsbD 31 := by
  rw [← BitVec.getLsbD_eq_getElem]
  unfold immJField
  repeat rw [BitVec.getLsbD_append]
  interval_cases k <;> simp

theorem evenOffset_immBField : evenOffset (immBField w) = true := by simp [evenOffset, immBField_bit]

theorem evenOffset_immJField : evenOffset (immJField w) = true := by simp [evenOffset, immJField_bit]

theorem packR_fields : packR (funct7Field w) (rs2Field w) (rs1Field w) (funct3Field w) (rdField w)
    (opcodeField w) = w := by
  apply BitVec.eq_of_getElem_eq
  intro k hk
  rw [packR_bit]
  interval_cases k <;> simp [funct7Field, rs2Field, rs1Field, funct3Field, rdField, opcodeField]

theorem packI_fields : packI (immIField w) (rs1Field w) (funct3Field w) (rdField w) (opcodeField w) = w := by
  apply BitVec.eq_of_getElem_eq
  intro k hk
  rw [packI_bit]
  interval_cases k <;> simp [immIField, rs1Field, funct3Field, rdField, opcodeField]

theorem packS_fields : packS (immSField w) (rs2Field w) (rs1Field w) (funct3Field w) (opcodeField w) = w := by
  apply BitVec.eq_of_getElem_eq
  intro k hk
  rw [packS_bit]
  interval_cases k <;> simp [immSField_bit, rs2Field, rs1Field, funct3Field, opcodeField]

theorem packB_fields : packB (immBField w) (rs2Field w) (rs1Field w) (funct3Field w) (opcodeField w) = w := by
  apply BitVec.eq_of_getElem_eq
  intro k hk
  rw [packB_bit]
  interval_cases k <;> simp [immBField_bit, rs2Field, rs1Field, funct3Field, opcodeField]

theorem packU_fields : packU (immUField w) (rdField w) (opcodeField w) = w := by
  apply BitVec.eq_of_getElem_eq
  intro k hk
  rw [packU_bit]
  interval_cases k <;> simp [immUField, rdField, opcodeField]

theorem packJ_fields : packJ (immJField w) (rdField w) (opcodeField w) = w := by
  apply BitVec.eq_of_getElem_eq
  intro k hk
  rw [packJ_bit]
  interval_cases k <;> simp [immJField_bit, rdField, opcodeField]

end Repacked

/-! ### A decoded word is the encoding of its instruction (R117, R120) -/

/-- What the row reads from a word that fits it is an instruction, whose encoding is the word unless the row
ignores fields of it, as those of MISC-MEM do (R120). -/
def Row.Repacks (row : Row) : Prop :=
  ∀ w, row.fits w = true →
    WellFormed (row.build w) = true ∧ (opcodeField w ≠ 0x0F#7 → encode (row.build w) = w)

section RowRepacks

variable {m : String} {f7 : BitVec 7} {f3 : BitVec 3} {op : BitVec 7} {build : Word → Instr}

theorem rowOp_repacks (hwf : ∀ w, WellFormed (build w) = true)
    (hpack : ∀ w, opcodeField w = op → encode (build w) = w) : (rowOp m op build).Repacks := by
  intro w hf
  exact ⟨hwf w, fun _ => hpack w ((rowOp_fits ..).mp hf)⟩

theorem rowF3_repacks (hwf : ∀ w, WellFormed (build w) = true)
    (hpack : ∀ w, funct3Field w = f3 → opcodeField w = op → encode (build w) = w) :
    (rowF3 m f3 op build).Repacks := by
  intro w hf
  obtain ⟨h3, ho⟩ := (rowF3_fits ..).mp hf
  exact ⟨hwf w, fun _ => hpack w h3 ho⟩

theorem rowI_repacks (hwf : ∀ w, WellFormed (build w) = true)
    (hpack : ∀ w, encode (build w) = packI (immIField w) (rs1Field w) f3 (rdField w) op) :
    (rowF3 m f3 op build).Repacks :=
  rowF3_repacks hwf fun w h3 ho => by rw [hpack, ← h3, ← ho, packI_fields]

theorem rowS_repacks (hwf : ∀ w, WellFormed (build w) = true)
    (hpack : ∀ w, encode (build w) = packS (immSField w) (rs2Field w) (rs1Field w) f3 op) :
    (rowF3 m f3 op build).Repacks :=
  rowF3_repacks hwf fun w h3 ho => by rw [hpack, ← h3, ← ho, packS_fields]

theorem rowB_repacks (hwf : ∀ w, WellFormed (build w) = evenOffset (immBField w))
    (hpack : ∀ w, encode (build w) = packB (immBField w) (rs2Field w) (rs1Field w) f3 op) :
    (rowF3 m f3 op build).Repacks :=
  rowF3_repacks (fun w => by rw [hwf, evenOffset_immBField])
    fun w h3 ho => by rw [hpack, ← h3, ← ho, packB_fields]

theorem rowR_repacks (hwf : ∀ w, WellFormed (build w) = true)
    (hpack : ∀ w, encode (build w) = packR f7 (rs2Field w) (rs1Field w) f3 (rdField w) op) :
    (rowF7 m f7 f3 op build).Repacks := by
  intro w hf
  obtain ⟨h7, h3, ho⟩ := (rowF7_fits ..).mp hf
  exact ⟨hwf w, fun _ => by show encode (build w) = w; rw [hpack, ← h7, ← h3, ← ho, packR_fields]⟩

/-- The rows of MISC-MEM ignore fields, so only the instruction is asked for. -/
theorem rowMiscMem_repacks (hwf : ∀ w, WellFormed (build w) = true) :
    (rowF3 m f3 0b0001111#7 build).Repacks := by
  intro w hf
  exact ⟨hwf w, fun hne => absurd ((rowF3_fits ..).mp hf).2 hne⟩

theorem rowPriv_repacks {f12 : BitVec 12} {i : Instr} (hwf : WellFormed i = true)
    (hpack : encode i = f12 ++ 0#13 ++ 0b1110011#7) : (rowPriv m f12 i).Repacks := by
  intro w hf
  exact ⟨hwf, fun _ => hpack.trans ((rowPriv_fits ..).mp hf).symm⟩

end RowRepacks

theorem upperRows_repack : ∀ row ∈ upperRows, row.Repacks := by
  simp only [upperRows, List.forall_mem_cons, List.not_mem_nil, false_implies, implies_true, and_true]
  refine ⟨?lui, ?auipc, ?jal⟩
  case lui => exact rowOp_repacks (fun _ => rfl) fun w ho => by rw [encode, ← ho, packU_fields]
  case auipc => exact rowOp_repacks (fun _ => rfl) fun w ho => by rw [encode, ← ho, packU_fields]
  case jal => exact rowOp_repacks evenOffset_immJField fun w ho => by rw [encode, ← ho, packJ_fields]

theorem controlRows_repack : ∀ row ∈ controlRows, row.Repacks := by
  simp only [controlRows, List.forall_mem_cons, List.not_mem_nil, false_implies, implies_true, and_true]
  refine ⟨?jalr, ?beq, ?bne, ?blt, ?bge, ?bltu, ?bgeu⟩
  case jalr => exact rowI_repacks (fun _ => rfl) (fun _ => rfl)
  all_goals exact rowB_repacks (fun _ => rfl) (fun _ => rfl)

theorem memoryRows_repack : ∀ row ∈ memoryRows, row.Repacks := by
  simp only [memoryRows, List.forall_mem_cons, List.not_mem_nil, false_implies, implies_true, and_true]
  refine ⟨?lb, ?lh, ?lw, ?lbu, ?lhu, ?sb, ?sh, ?sw⟩
  case sb | sh | sw => exact rowS_repacks (fun _ => rfl) (fun _ => rfl)
  all_goals exact rowI_repacks (fun _ => rfl) (fun _ => rfl)

theorem immediateRows_repack : ∀ row ∈ immediateRows, row.Repacks := by
  simp only [immediateRows, List.forall_mem_cons, List.not_mem_nil, false_implies, implies_true, and_true]
  refine ⟨?addi, ?slti, ?sltiu, ?xori, ?ori, ?andi, ?slli, ?srli, ?srai⟩
  case slli | srli | srai => exact rowR_repacks (fun _ => rfl) (fun _ => rfl)
  all_goals exact rowI_repacks (fun _ => rfl) (fun _ => rfl)

theorem registerRows_repack : ∀ row ∈ registerRows, row.Repacks := by
  simp only [registerRows, List.forall_mem_cons, List.not_mem_nil, false_implies, implies_true, and_true]
  refine ⟨?add, ?sub, ?sll, ?slt, ?sltu, ?xor, ?srl, ?sra, ?or, ?and⟩
  all_goals exact rowR_repacks (fun _ => rfl) (fun _ => rfl)

theorem systemRows_repack : ∀ row ∈ systemRows, row.Repacks := by
  simp only [systemRows, List.forall_mem_cons, List.not_mem_nil, false_implies, implies_true, and_true]
  refine ⟨?fence, ?fenceI, ?ecall, ?ebreak, ?csrrw, ?csrrs, ?csrrc, ?csrrwi, ?csrrsi, ?csrrci⟩
  case fence | fenceI => exact rowMiscMem_repacks (fun _ => rfl)
  case ecall | ebreak => exact rowPriv_repacks rfl rfl
  all_goals exact rowI_repacks (fun _ => rfl) (fun _ => rfl)

theorem opcodeTable_repacks {row : Row} (h : row ∈ opcodeTable) : row.Repacks := by
  simp only [opcodeTable, List.mem_append] at h
  rcases h with h | h | h | h | h | h
  · exact upperRows_repack row h
  · exact controlRows_repack row h
  · exact memoryRows_repack row h
  · exact immediateRows_repack row h
  · exact registerRows_repack row h
  · exact systemRows_repack row h

/-! ### Decode and encode agree -/

/-- Every instruction is encoded by the row of its mnemonic. -/
theorem encodesItsRow (i : Instr) : Laws.EncodesItsRow.Statement i := by
  cases i with
  | lui => exact Laws.EncodesItsRow.lui ..
  | auipc => exact Laws.EncodesItsRow.auipc ..
  | jal => exact Laws.EncodesItsRow.jal ..
  | jalr => exact Laws.EncodesItsRow.jalr ..
  | beq => exact Laws.EncodesItsRow.beq ..
  | bne => exact Laws.EncodesItsRow.bne ..
  | blt => exact Laws.EncodesItsRow.blt ..
  | bge => exact Laws.EncodesItsRow.bge ..
  | bltu => exact Laws.EncodesItsRow.bltu ..
  | bgeu => exact Laws.EncodesItsRow.bgeu ..
  | lb => exact Laws.EncodesItsRow.lb ..
  | lh => exact Laws.EncodesItsRow.lh ..
  | lw => exact Laws.EncodesItsRow.lw ..
  | lbu => exact Laws.EncodesItsRow.lbu ..
  | lhu => exact Laws.EncodesItsRow.lhu ..
  | sb => exact Laws.EncodesItsRow.sb ..
  | sh => exact Laws.EncodesItsRow.sh ..
  | sw => exact Laws.EncodesItsRow.sw ..
  | addi => exact Laws.EncodesItsRow.addi ..
  | slti => exact Laws.EncodesItsRow.slti ..
  | sltiu => exact Laws.EncodesItsRow.sltiu ..
  | xori => exact Laws.EncodesItsRow.xori ..
  | ori => exact Laws.EncodesItsRow.ori ..
  | andi => exact Laws.EncodesItsRow.andi ..
  | slli => exact Laws.EncodesItsRow.slli ..
  | srli => exact Laws.EncodesItsRow.srli ..
  | srai => exact Laws.EncodesItsRow.srai ..
  | add => exact Laws.EncodesItsRow.add ..
  | sub => exact Laws.EncodesItsRow.sub ..
  | sll => exact Laws.EncodesItsRow.sll ..
  | slt => exact Laws.EncodesItsRow.slt ..
  | sltu => exact Laws.EncodesItsRow.sltu ..
  | xor => exact Laws.EncodesItsRow.xor ..
  | srl => exact Laws.EncodesItsRow.srl ..
  | sra => exact Laws.EncodesItsRow.sra ..
  | or => exact Laws.EncodesItsRow.or ..
  | and => exact Laws.EncodesItsRow.and ..
  | fence => exact Laws.EncodesItsRow.fence ..
  | fenceI => exact Laws.EncodesItsRow.fenceI
  | ecall => exact Laws.EncodesItsRow.ecall
  | ebreak => exact Laws.EncodesItsRow.ebreak
  | csrrw => exact Laws.EncodesItsRow.csrrw ..
  | csrrs => exact Laws.EncodesItsRow.csrrs ..
  | csrrc => exact Laws.EncodesItsRow.csrrc ..
  | csrrwi => exact Laws.EncodesItsRow.csrrwi ..
  | csrrsi => exact Laws.EncodesItsRow.csrrsi ..
  | csrrci => exact Laws.EncodesItsRow.csrrci ..

/-- Settles O1: the row that encodes the instruction is the one that fits its word, and reads it back. -/
theorem decodeOfEncodeIsTheInstruction : Obligations.DecodeOfEncodeIsTheInstruction := by
  intro i hwf
  obtain ⟨row, hrow, -, hfits, hbuild⟩ := encodesItsRow i
  rw [decodeWord_of_fits hrow hfits, hbuild hwf]

/-- Settles O2: the row that decodes the word packs it again. -/
theorem encodeOfDecodeIsTheWord : Obligations.EncodeOfDecodeIsTheWord := by
  intro w i hdec
  rcases decodeWord_cases w with ⟨row, hrow, hfits, h⟩ | ⟨-, h⟩
  · obtain rfl : row.build w = i := Except.ok.inj (h.symm.trans hdec)
    exact opcodeTable_repacks hrow w hfits
  · cases h.symm.trans hdec

/-- Settles O3: two rows that fit a word are one row. -/
theorem opcodeRowsAreDisjoint : Obligations.OpcodeRowsAreDisjoint := by
  intro w a ha b hb fa fb
  rw [row_eq_of_fits ha hb fa fb]

end Sys2Proof
end

section
/-! SUPPORT. The words that no row of the opcode table fits (spec/30_encoding.md R119), and the fields that
MISC-MEM ignores (R261, R263). -/

namespace Sys2Proof.Machine

/-! ### Which words the rows fit, opcode by opcode (R116, R118) -/

theorem funct3_cases (f : BitVec 3) :
    f = 0#3 ∨ f = 1#3 ∨ f = 2#3 ∨ f = 3#3 ∨ f = 4#3 ∨ f = 5#3 ∨ f = 6#3 ∨ f = 7#3 := by
  revert f
  decide

section Fitted

variable (w : Word)

theorem upperRows_fit : (∃ row ∈ upperRows, row.fits w = true) ↔
    opcodeField w ∈ [0x37#7, 0x17#7, 0x6F#7] := by
  simp [upperRows, rowOp_fits]

theorem controlRows_fit : (∃ row ∈ controlRows, row.fits w = true) ↔
    (opcodeField w = 0x67#7 ∧ funct3Field w = 0#3) ∨
    (opcodeField w = 0x63#7 ∧ funct3Field w ∉ [2#3, 3#3]) := by
  simp only [controlRows, List.mem_cons, List.not_mem_nil, exists_eq_or_imp, or_false, exists_eq_left, rowF3_fits]
  rcases funct3_cases (funct3Field w) with h | h | h | h | h | h | h | h <;> simp [h]

theorem memoryRows_fit : (∃ row ∈ memoryRows, row.fits w = true) ↔
    (opcodeField w = 0x03#7 ∧ funct3Field w ∉ [3#3, 6#3, 7#3]) ∨
    (opcodeField w = 0x23#7 ∧ funct3Field w ∉ [3#3, 4#3, 5#3, 6#3, 7#3]) := by
  simp only [memoryRows, List.mem_cons, List.not_mem_nil, exists_eq_or_imp, or_false, exists_eq_left, rowF3_fits]
  rcases funct3_cases (funct3Field w) with h | h | h | h | h | h | h | h <;> simp [h]

theorem immediateRows_fit : (∃ row ∈ immediateRows, row.fits w = true) ↔
    opcodeField w = 0x13#7 ∧ (funct3Field w = 1#3 → funct7Field w = 0x00#7) ∧
      (funct3Field w = 5#3 → funct7Field w ∈ [0x00#7, 0x20#7]) := by
  simp only [immediateRows, List.mem_cons, List.not_mem_nil, exists_eq_or_imp, or_false, exists_eq_left, rowF3_fits, rowF7_fits]
  rcases funct3_cases (funct3Field w) with h | h | h | h | h | h | h | h <;> simp [h] <;> grind

theorem registerRows_fit : (∃ row ∈ registerRows, row.fits w = true) ↔
    opcodeField w = 0x33#7 ∧
      (funct7Field w = 0x00#7 ∨ (funct7Field w = 0x20#7 ∧ funct3Field w ∈ [0#3, 5#3])) := by
  simp only [registerRows, List.mem_cons, List.not_mem_nil, exists_eq_or_imp, or_false, exists_eq_left, rowF7_fits]
  rcases funct3_cases (funct3Field w) with h | h | h | h | h | h | h | h <;> simp [h] <;> grind

/-- ECALL and EBREAK lie under SYSTEM with funct3 PRIV. -/
theorem fields_of_privWord (h : w ∈ [0x00000073#32, 0x00100073#32]) :
    opcodeField w = 0x73#7 ∧ funct3Field w = 0#3 := by
  simp only [List.mem_cons, List.not_mem_nil, or_false] at h
  rcases h with rfl | rfl <;> decide

theorem systemRows_fit : (∃ row ∈ systemRows, row.fits w = true) ↔
    (opcodeField w = 0x0F#7 ∧ funct3Field w ∈ [0#3, 1#3]) ∨
    (opcodeField w = 0x73#7 ∧ funct3Field w ≠ 4#3 ∧
      (funct3Field w = 0#3 → w ∈ [0x00000073#32, 0x00100073#32])) := by
  have hpriv := fields_of_privWord w
  have hecall : 0#12 ++ 0#13 ++ 0b1110011#7 = 0x00000073#32 := rfl
  have hebreak : 1#12 ++ 0#13 ++ 0b1110011#7 = 0x00100073#32 := rfl
  simp only [systemRows, List.mem_cons, List.not_mem_nil, exists_eq_or_imp, or_false, exists_eq_left,
    rowF3_fits, rowPriv_fits, hecall, hebreak] at hpriv ⊢
  rcases funct3_cases (funct3Field w) with h | h | h | h | h | h | h | h <;> simp [h] at hpriv ⊢ <;> tauto

/-- The words that some row fits: the list of R119 read the other way round. -/
theorem exists_fits_iff : (∃ row ∈ opcodeTable, row.fits w = true) ↔ ¬ EncodesNothing w := by
  simp only [opcodeTable, List.mem_append, or_and_right, exists_or, upperRows_fit, controlRows_fit,
    memoryRows_fit, immediateRows_fit, registerRows_fit, systemRows_fit, EncodesNothing, opcodeField,
    funct3Field, funct7Field]
  generalize w.extractLsb' 0 7 = op, w.extractLsb' 12 3 = f3, w.extractLsb' 25 7 = f7
  by_cases hop : op ∈ [0x03#7, 0x0F#7, 0x13#7, 0x17#7, 0x23#7, 0x33#7, 0x37#7, 0x63#7, 0x67#7, 0x6F#7, 0x73#7]
  · simp only [List.mem_cons, List.not_mem_nil, or_false] at hop
    rcases hop with rfl | rfl | rfl | rfl | rfl | rfl | rfl | rfl | rfl | rfl | rfl <;> simp <;> grind
  · simp only [List.mem_cons, List.not_mem_nil, or_false, not_or] at hop
    simp [hop]

end Fitted

/-- Settles O4: the words without a row are those of R119. -/
theorem illegalWordsAreExactlyTheListed : Obligations.IllegalWordsAreExactlyTheListed := by
  intro w
  rcases decodeWord_cases w with ⟨row, hrow, hfits, h⟩ | ⟨hnone, h⟩
  · have := (exists_fits_iff w).mp ⟨row, hrow, hfits⟩
    simp [h, this]
  · have := (exists_fits_iff w).not_left.mp (by simpa using hnone)
    simp [h, this]

/-! ### MISC-MEM (R260 to R263) -/

/-- Settles O5: the rows of FENCE and FENCE.I fix the bits of 0x0000707F alone. -/
theorem reservedFenceFieldsAreIgnored : Obligations.ReservedFenceFieldsAreIgnored := by
  intro w
  refine ⟨fun h => ?fence, fun h => ?fenceI⟩
  case fence =>
    have hrow : rowF3 "FENCE" 0b000#3 0b0001111#7 (fun w => .fence (predField w) (succField w)) ∈ opcodeTable :=
      List.mem_of_getElem? (i := 37) rfl
    rw [decodeWord_of_fits hrow (beq_iff_eq.mpr h)]
    simp [rowF3, predField, succField, fenceSetOfBits]
  case fenceI =>
    have hrow : rowF3 "FENCE.I" 0b001#3 0b0001111#7 (fun _ => .fenceI) ∈ opcodeTable :=
      List.mem_of_getElem? (i := 38) rfl
    exact decodeWord_of_fits hrow (beq_iff_eq.mpr h)

end Sys2Proof.Machine
end

section
/-! SUPPORT. Fetch and the step (spec/20_memory.md R65, R69, R77; spec/60_exceptions.md R340): which word a fetch
gives, when it asks an oracle, where it stops, and what the step does with the word. -/

namespace Sys2Proof.Machine

/-! ### The bytes of a word (R61) -/

theorem ofNat_div_eq_extract (w : Word) (k : Nat) :
    BitVec.ofNat 8 (w.toNat / 256 ^ k) = w.extractLsb' (8 * k) 8 := by
  apply BitVec.eq_of_toNat_eq
  rw [BitVec.toNat_ofNat, BitVec.extractLsb'_toNat, Nat.shiftRight_eq_div_pow, Nat.pow_mul]

theorem leBytes_word_getElem? (w : Word) {n k : Nat} (hk : k < n) :
    (leBytes n w.toNat)[k]? = some (w.extractLsb' (8 * k) 8) := by
  rw [List.getElem?_eq_getElem (by simpa using hk), leBytes_getElem, ofNat_div_eq_extract]

theorem leBytes_leValue (bs : List Byte) : leBytes bs.length (leValue bs) = bs := by
  induction bs with
  | nil => rfl
  | cons b bs ih =>
    have hb := b.isLt
    have hdiv : (b.toNat + 256 * leValue bs) / 256 = leValue bs := by omega
    have hmod : BitVec.ofNat 8 (b.toNat + 256 * leValue bs) = b := by
      apply BitVec.eq_of_toNat_eq
      rw [BitVec.toNat_ofNat]
      omega
    rw [List.length_cons, leValue, leBytes, hdiv, ih, hmod]

theorem ofNat_leValue_leBytes_word (w : Word) : BitVec.ofNat 32 (leValue (leBytes 4 w.toNat)) = w := by
  have hlt : w.toNat < 256 ^ 4 := w.isLt
  rw [leValue_leBytes, Nat.mod_eq_of_lt hlt, BitVec.ofNat_toNat, BitVec.setWidth_eq]

/-- Four bytes are the little-endian bytes of the word they make. -/
theorem eq_leBytes_word {bs : List Byte} (h : bs.length = 4) :
    bs = leBytes 4 (BitVec.ofNat 32 (leValue bs)).toNat := by
  have hlt : leValue bs < 2 ^ 32 := by
    have := leValue_lt bs
    rwa [h] at this
  have := leBytes_leValue bs
  rw [h] at this
  rw [BitVec.toNat_ofNat, Nat.mod_eq_of_lt hlt, this]

/-! ### The word a fetch gives (R65, R72, R77) -/

theorem gather_fetchByte_iff (s : State) (w : Word) :
    gather (fetchByte s) 0 (byteAddrs s.pc 4) = .ok (leBytes 4 w.toNat) ↔ FetchesWord w s := by
  simp only [gather_ok, leBytes_length, byteAddrs_length, true_and, Nat.zero_add, byteAddrs_getElem,
    FetchesWord, fetchGives_iff]
  refine forall₂_congr fun k hk => ?_
  rw [leBytes_word_getElem? w hk]

/-- Whether the fetch at the pc asks an oracle. -/
def fetchAsks (s : State) : Bool := (byteAddrs s.pc 4).any (fun a => fetchDraws s a)

theorem fetch_of_fetchesWord {s : State} {w : Word} (ha : Accessible .fetch s.pc 4 s) (hw : FetchesWord w s) :
    fetch s = .ok (w, s.countDraw (fetchAsks s)) := by
  have hg := (gather_fetchByte_iff s w).mpr hw
  have hacc : (byteAddrs s.pc 4).all (fun a => s.platform.accessible .fetch a) = true := (all_byteAddrs _).mpr ha
  simp [fetch, hacc, hg, ofNat_leValue_leBytes_word, fetchAsks]

theorem fetchesWord_of_fetch {s t : State} {w : Word} (h : fetch s = .ok (w, t)) :
    Accessible .fetch s.pc 4 s ∧ FetchesWord w s := by
  rcases fetch_cases s with ⟨ha, bytes, hg, hl, hf⟩ | ⟨_, b, _, hf⟩ | ⟨_, hf⟩
  · rw [hf, Access.ok.injEq, Prod.mk.injEq] at h
    rw [eq_leBytes_word hl, h.1] at hg
    exact ⟨ha, (gather_fetchByte_iff s w).mp hg⟩
  · cases hf.symm.trans h
  · cases hf.symm.trans h

theorem fetch_denied {s : State} (h : ¬ Accessible .fetch s.pc 4 s) : fetch s = .denied := by
  rcases fetch_cases s with ⟨ha, _⟩ | ⟨ha, _⟩ | ⟨_, hf⟩
  · exact absurd ha h
  · exact absurd ha h
  · exact hf

/-- A fetch stops at the first byte without a value. -/
theorem fetch_noValue {s : State} {k : Nat} (ha : Accessible .fetch s.pc 4 s) (hk : k < 4)
    (hbelow : ∀ j < k, fetchByte s j (byteAddr s.pc j) ≠ none)
    (hnone : fetchByte s k (byteAddr s.pc k) = none) : fetch s = .noValue (byteAddr s.pc k) := by
  have hg : gather (fetchByte s) 0 (byteAddrs s.pc 4) = .noValue (byteAddr s.pc k) := by
    have := gather_noValue (f := fetchByte s) (i := 0) (as := byteAddrs s.pc 4) (k := k) (by simpa using hk)
      (by simpa using hbelow) (by simpa using hnone)
    rwa [byteAddrs_getElem] at this
  have hacc : (byteAddrs s.pc 4).all (fun a => s.platform.accessible .fetch a) = true := (all_byteAddrs _).mpr ha
  simp [fetch, hacc, hg]

/-! ### Fetches that ask no oracle, and those that do -/

theorem fetchByte_of_plain {s : State} {i : Nat} {a : Word} (hio : s.platform.isIO a = false)
    (ho : s.fetchView.older a = []) : fetchByte s i a = s.mem.read a := by
  simp [fetchByte, hio, ho]

theorem fetchByte_of_io {s : State} {i : Nat} {a : Word} (hio : s.platform.isIO a = true) :
    fetchByte s i a = some (Config.deviceByte s.draws i) := by
  simp [fetchByte, hio]

theorem PlainFetch.fetchByte {s : State} (h : PlainFetch s) {k : Nat} (hk : k < 4) :
    Machine.fetchByte s k (byteAddr s.pc k) = s.mem.read (byteAddr s.pc k) :=
  fetchByte_of_plain (h.2.1 k hk) (h.2.2 k hk)

theorem PlainFetch.fetchesWord {s : State} (h : PlainFetch s) {w : Word} (hw : HoldsWord w s) :
    FetchesWord w s := fun k hk => by
  rw [fetchGives_iff, h.fetchByte hk, hw k hk]

theorem PlainFetch.asks_eq_false {s : State} (h : PlainFetch s) : fetchAsks s = false := by
  obtain ⟨-, hio, ho⟩ := h
  refine (any_byteAddrs_false _).mpr fun k hk => ?_
  simp [fetchDraws, hio k hk, ho k hk]

theorem DrawnFetch.asks_eq_true {s : State} (h : DrawnFetch s) : fetchAsks s = true := by
  obtain ⟨k, hk, hb⟩ := h
  refine List.any_eq_true.mpr ⟨byteAddr s.pc k, mem_byteAddrs.mpr ⟨k, hk, rfl⟩, ?_⟩
  simpa [fetchDraws] using hb

theorem PlainFetch.fetch_eq {s : State} (h : PlainFetch s) {w : Word} (hw : HoldsWord w s) :
    fetch s = .ok (w, s) := by
  rw [fetch_of_fetchesWord h.1 (h.fetchesWord hw), h.asks_eq_false]
  rfl

theorem DrawnFetch.fetch_eq {s : State} (h : DrawnFetch s) (ha : Accessible .fetch s.pc 4 s) {w : Word}
    (hw : FetchesWord w s) : fetch s = .ok (w, { s with draws := s.draws + 1 }) := by
  rw [fetch_of_fetchesWord ha hw, h.asks_eq_true]
  rfl

/-! ### What the step does with the fetch (R13, R340) -/

section Step

variable {s : State}

theorem step_eq_afterHandoff {trap : Trap} (hs : s.handoff = some trap) : step s = afterHandoff trap s := by
  simp [step, hs]

theorem step_eq_trap_of_denied (hs : s.handoff = none) (hf : fetch s = .denied) :
    step s = trap .instructionAccessFault (some s.pc) s := by
  simp [step, hs, hf]

theorem step_eq_fault_of_noValue (hs : s.handoff = none) {a : Word} (hf : fetch s = .noValue a) :
    step s = .fault (.unwrittenByte a) := by
  simp [step, hs, hf]

theorem step_eq_exec (hs : s.handoff = none) {w : Word} {t : State} (hf : fetch s = .ok (w, t)) {i : Instr}
    (hd : decodeWord w = .ok i) : step s = exec i t := by
  simp [step, hs, hf, hd]

theorem step_eq_trap_of_illegal (hs : s.handoff = none) {w : Word} {t : State} (hf : fetch s = .ok (w, t))
    (hw : EncodesNothing w) : step s = trap .illegalInstruction (some w) t := by
  simp [step, hs, hf, (illegalWordsAreExactlyTheListed w).mpr hw]

/-- The fetched word runs in the state that the fetch left. -/
theorem runsFetched_of_fetch (hs : s.handoff = none) {w : Word} {t : State} (hf : fetch s = .ok (w, t))
    (hpc : t.pc = s.pc) : RunsFetched w s t := by
  refine ⟨fun i hd => step_eq_exec hs hf hd, fun hw => ?_⟩
  rw [step_eq_trap_of_illegal hs hf hw, ← hpc]
  rfl

end Step

/-- Settles O7: a plain fetch leaves the state as it was and gives the word that memory holds. -/
theorem stepRunsTheDecodedInstruction : Obligations.StepRunsTheDecodedInstruction :=
  fun _ _ _ hs hp hw hd => step_eq_exec hs (hp.fetch_eq hw) hd

/-- Settles O8: the word has no row, and a plain fetch leaves the state as it was. -/
theorem illegalWordIsHandedOff : Obligations.IllegalWordIsHandedOff :=
  fun _ _ hs hp hw hn => step_eq_trap_of_illegal hs (hp.fetch_eq hw) hn

/-- Settles O9: the check of all four bytes comes first. -/
theorem deniedFetchIsHandedOff : Obligations.DeniedFetchIsHandedOff :=
  fun _ hs ha => step_eq_trap_of_denied hs (fetch_denied ha)

/-- Settles O10: byte k of the fetch is what `fetchByte` gives, and the fetch asks an oracle once. -/
theorem staleFetchReturnsStoredOrOlderBytes : Obligations.StaleFetchReturnsStoredOrOlderBytes := by
  intro s hs ha hd
  refine ⟨fun k => fetchByte s k (byteAddr s.pc k), fun k _ => (fetchGives_iff ..).mpr rfl, ?runs, ?stops⟩
  case runs =>
    intro w hw
    have hfw : FetchesWord w s := fun k hk => (fetchGives_iff ..).mpr (hw k hk)
    exact runsFetched_of_fetch hs (hd.fetch_eq ha hfw) rfl
  case stops =>
    intro k hk hbelow hnone
    exact step_eq_fault_of_noValue hs (fetch_noValue ha hk hbelow hnone)

/-- The bytes of four bytes put together. -/
theorem extract_of_append (b0 b1 b2 b3 : Byte) (k : Nat) (hk : k < 4) :
    (b3 ++ b2 ++ b1 ++ b0).extractLsb' (8 * k) 8 = [b0, b1, b2, b3][k] := by
  apply BitVec.eq_of_getLsbD_eq
  intro j hj
  interval_cases k <;> simp [hj] <;> grind

/-- Settles O11: the device answers each of the four bytes. -/
theorem fetchFromDeviceRunsWhatItAnswers : Obligations.FetchFromDeviceRunsWhatItAnswers := by
  intro s hs ha hio
  have hd : DrawnFetch s := ⟨0, by decide, .inl (hio 0 (by decide))⟩
  refine runsFetched_of_fetch hs (hd.fetch_eq ha fun k hk => ?_) rfl
  rw [fetchGives_iff, fetchByte_of_io (hio k hk), extract_of_append _ _ _ _ k hk]
  interval_cases k <;> rfl

/-- Settles O12: a plain fetch reads memory, and stops at its first byte without a value. -/
theorem fetchOfUnwrittenByteFaults : Obligations.FetchOfUnwrittenByteFaults := by
  intro s k hs hp hk hbelow hnone
  refine step_eq_fault_of_noValue hs (fetch_noValue hp.1 hk (fun j hj => ?_) ?_)
  · rw [hp.fetchByte (hj.trans hk)]
    exact hbelow j hj
  · rw [hp.fetchByte hk, hnone]

/-- Settles O13: the step asks the environment, and `State.resume` is the state it returns. -/
theorem handOffGoesToTheEnvironment : Obligations.HandOffGoesToTheEnvironment := by
  intro s trap hs
  rw [step_eq_afterHandoff hs, afterHandoff]
  cases Config.eeiResume trap s with
  | none => rfl
  | some r => rfl

/-! ### A word placed from outside (log entry 7) -/

@[simp] theorem State.placeByte_pc (s : State) (a : Word) (b : Byte) : (s.placeByte a b).pc = s.pc := rfl

theorem State.placeBytes_cons (s : State) (a : Word) (as : List Word) (b : Byte) (bs : List Byte) :
    s.placeBytes (a :: as) (b :: bs) = (s.placeByte a b).placeBytes as bs := rfl

@[simp] theorem State.placeBytes_nil_left (s : State) (bs : List Byte) : s.placeBytes [] bs = s := by
  cases bs <;> rfl

@[simp] theorem State.placeBytes_nil_right (s : State) (as : List Word) : s.placeBytes as [] = s := by
  cases as <;> rfl

@[simp] theorem State.placeBytes_pc (s : State) (as : List Word) (bs : List Byte) :
    (s.placeBytes as bs).pc = s.pc := by
  induction as generalizing s bs with
  | nil => simp
  | cons a as ih =>
    cases bs with
    | nil => simp
    | cons b bs => rw [State.placeBytes_cons, ih, State.placeByte_pc]

/-- Bytes at other addresses are as before. -/
theorem State.placeBytes_ne (s : State) (as : List Word) (bs : List Byte) {c : Word} (h : c ∉ as) :
    (s.placeBytes as bs).mem.read c = s.mem.read c ∧
      (s.placeBytes as bs).fetchView.older c = s.fetchView.older c := by
  induction as generalizing s bs with
  | nil => simp
  | cons a as ih =>
    cases bs with
    | nil => simp
    | cons b bs =>
      obtain ⟨hca, hcas⟩ := not_or.mp (List.mem_cons.not.mp h)
      obtain ⟨hread, holder⟩ := ih (s.placeByte a b) bs hcas
      rw [State.placeBytes_cons, hread, holder]
      exact ⟨Memory.read_write_ne _ _ _ hca, FetchView.older_forget_ne _ _ hca⟩

/-- A placed byte is in memory, and fetch sees no older one. -/
theorem State.placeBytes_placed (s : State) (as : List Word) (bs : List Byte) (hn : as.Nodup)
    (hl : bs.length = as.length) (k : Nat) (hk : k < as.length) :
    (s.placeBytes as bs).mem.read as[k] = bs[k]? ∧ (s.placeBytes as bs).fetchView.older as[k] = [] := by
  induction as generalizing s bs k with
  | nil => simp at hk
  | cons a as ih =>
    cases bs with
    | nil => simp at hl
    | cons b bs =>
      obtain ⟨hna, hn'⟩ := List.nodup_cons.mp hn
      cases k with
      | zero =>
        obtain ⟨hread, holder⟩ := State.placeBytes_ne (s.placeByte a b) as bs hna
        simp only [State.placeBytes_cons, List.getElem_cons_zero]
        rw [hread, holder]
        simp [State.placeByte]
      | succ k => exact ih (s.placeByte a b) bs hn' (by simpa using hl) k (by simpa using hk)

/-- Of an opened platform, a listed byte may be fetched and is not I/O. -/
theorem Platform.openFor_opens (p : Platform) {as : List Word} {a : Word} (h : a ∈ as) :
    (p.openFor as).accessible .fetch a = true ∧ (p.openFor as).isIO a = false := by
  unfold Platform.openFor
  split
  · next hall => simpa using List.all_eq_true.mp hall a h
  · have hsome : ((as.map openByte).find? (fun r => r.holds a)).isSome = true :=
      List.find?_isSome.mpr ⟨openByte a, List.mem_map_of_mem h, by simp [Region.holds, openByte]⟩
    obtain ⟨r, hr⟩ := Option.isSome_iff_exists.mp hsome
    obtain ⟨b, -, rfl⟩ := List.mem_map.mp (List.mem_of_find?_eq_some hr)
    simp [Platform.accessible, Platform.isIO, List.find?_append, hr, openByte, Region.allows]

/-- The placed word is fetched by a plain fetch. -/
theorem State.withFetchWord_fetches (s : State) (w : Word) :
    PlainFetch (s.withFetchWord 32 w.toNat) ∧ HoldsWord w (s.withFetchWord 32 w.toNat) := by
  have hpc : (s.withFetchWord 32 w.toNat).pc = s.pc := State.placeBytes_pc ..
  have hplaced : ∀ k < 4,
      (s.withFetchWord 32 w.toNat).mem.read (byteAddr s.pc k) = some (w.extractLsb' (8 * k) 8) ∧
      (s.withFetchWord 32 w.toNat).fetchView.older (byteAddr s.pc k) = [] := by
    intro k hk
    have := State.placeBytes_placed s (byteAddrs s.pc 4) (leBytes 4 w.toNat) (byteAddrs_nodup _ (by decide))
      (by simp) k (by simpa using hk)
    rw [byteAddrs_getElem, leBytes_word_getElem? w hk] at this
    simpa [State.withFetchWord, State.placeWord, Nat.mod_eq_of_lt w.isLt] using this
  have hopen : ∀ k < 4, (s.withFetchWord 32 w.toNat).platform.accessible .fetch (byteAddr s.pc k) = true ∧
      (s.withFetchWord 32 w.toNat).platform.isIO (byteAddr s.pc k) = false := fun k hk =>
    Platform.openFor_opens s.platform (mem_byteAddrs.mpr ⟨k, hk, rfl⟩)
  unfold PlainFetch HoldsWord
  rw [hpc]
  exact ⟨⟨fun k hk => (hopen k hk).1, fun k hk => (hopen k hk).2, fun k hk => (hplaced k hk).2⟩,
    fun k hk => (hplaced k hk).1⟩

/-- Settles O14: the placed word lies at the pc, open for a plain fetch, and the hart steps. -/
theorem placedWordIsRunNext : Obligations.PlacedWordIsRunNext := by
  intro s w i hd
  obtain ⟨hp, hw⟩ := s.withFetchWord_fetches w
  exact stepRunsTheDecodedInstruction _ w i rfl hp hw hd

end Sys2Proof.Machine
end

section
/-! SUPPORT. Control transfer (spec/41_control_transfer.md R200 to R211) and the pseudo-instructions that compute
(spec/30_encoding.md R125). -/

namespace Sys2Proof.Machine

/-! ### What a write of rd and a retirement leave as they were -/

theorem onlyRegister_setReg_retire (rd : Reg) (v next : Word) (s : State) :
    OnlyRegister rd s ((s.setReg rd v).retire next) := by
  refine ⟨?regs, ?bytes, ?timers, ?surroundings⟩
  case regs =>
    intro r hr
    rw [State.retire_reg, State.reg_setReg_ne s rd v (List.ne_of_not_mem_cons hr)]
  case bytes => intro a _; simp
  case timers => simp [SameTimers]
  case surroundings => simp [SameSurroundings]

theorem onlyPc_retire (next : Word) (s : State) : OnlyPc s (s.retire next) :=
  ⟨fun _ _ => rfl, fun _ _ => rfl, ⟨rfl, rfl⟩, rfl, rfl, rfl, rfl⟩

/-! ### Targets (R201, R202, R204) -/

theorem pc_add_jumpOffset (s : State) (off : BitVec 21) :
    s.pc + jumpOffset off = BitVec.ofInt 32 (s.pc.toInt + off.toInt) := by
  have hoff : (jumpOffset off).toInt = off.toInt := BitVec.toInt_signExtend_of_le (by decide)
  rw [add_eq_ofInt, hoff]

theorem pc_add_branchOffset (s : State) (off : BitVec 13) :
    s.pc + branchOffset off = BitVec.ofInt 32 (s.pc.toInt + off.toInt) := by
  have hoff : (branchOffset off).toInt = off.toInt := BitVec.toInt_signExtend_of_le (by decide)
  rw [add_eq_ofInt, hoff]

/-- JALR's mask clears bit 0. -/
theorem and_mask_toNat (a : Word) : (a &&& 0xFFFFFFFE#32).toNat = a.toNat / 2 * 2 := by
  have hshift : a &&& 0xFFFFFFFE#32 = (a >>> 1) <<< 1 := by
    apply BitVec.eq_of_getLsbD_eq
    intro k hk
    interval_cases k <;> simp
  have := a.isLt
  rw [hshift, BitVec.toNat_shiftLeft, BitVec.toNat_ushiftRight, Nat.shiftLeft_eq, Nat.shiftRight_eq_div_pow]
  omega

theorem jalrTarget_toNat (s : State) (rs1 : Reg) (imm : BitVec 12) :
    ((s.reg rs1 + immWord imm) &&& 0xFFFFFFFE#32).toNat =
      (BitVec.ofInt 32 ((s.reg rs1).toInt + imm.toInt)).toNat / 2 * 2 := by
  rw [and_mask_toNat, add_eq_ofInt, immWord_toInt]

/-- Of an even target only bit 1 decides whether it is a multiple of 4 (R203). -/
theorem even_aligned_iff {target : Word} {n : Nat} (h : target.toNat = n / 2 * 2) :
    target.getLsbD 1 = false ↔ target.toNat % 4 = 0 := by
  rw [BitVec.getLsbD, Nat.testBit_eq_decide_div_mod_eq, decide_eq_false_iff_not]
  omega

/-! ### Jumps and branches -/

section Transfer

variable {i : Instr} {rd : Reg} {target : Word} {off : BitVec 13} {s : State}

theorem jumpsTo_of_exec (h : exec i s = jump rd target s) (ha : target.toNat % 4 = 0) : JumpsTo i rd target s := by
  rcases jump_cases rd target s with ⟨-, hj⟩ | ⟨hn, -⟩
  · exact ⟨_, h.trans hj, by simp [State.nextPc], by simp [Completed], onlyRegister_setReg_retire ..⟩
  · exact absurd ha hn

theorem handsOff_of_exec_jump (h : exec i s = jump rd target s) (hn : target.toNat % 4 ≠ 0) :
    HandsOff i .instructionAddressMisaligned (some target) s := by
  rcases jump_cases rd target s with ⟨ha, -⟩ | ⟨-, hj⟩
  · exact absurd ha hn
  · exact h.trans hj

theorem goesTo_of_exec {next : Word} (h : exec i s = .next (s.retire next)) : GoesTo i next s :=
  ⟨_, h, ⟨rfl, rfl, rfl⟩, onlyPc_retire ..⟩

/-- An instruction that ends in `branch` follows the rule of R204. -/
theorem branchRule_of_exec {taken : Bool} {cond : Prop} (h : exec i s = branch taken off s)
    (hcond : taken = true ↔ cond) (ht : target = BitVec.ofInt 32 (s.pc.toInt + off.toInt)) :
    BranchRule i cond target s := by
  rw [← pc_add_branchOffset] at ht
  subst ht
  rw [← hcond]
  rcases branch_cases taken off s with ⟨hf, hb⟩ | ⟨htr, ha, hb⟩ | ⟨htr, hn, hb⟩
  · exact ⟨fun _ => goesTo_of_exec (h.trans hb), by simp [hf], by simp [hf]⟩
  · exact ⟨by simp [htr], fun _ _ => goesTo_of_exec (h.trans hb), fun _ hn => absurd ha hn⟩
  · exact ⟨by simp [htr], fun _ ha => absurd ha hn, fun _ _ => h.trans hb⟩

end Transfer

/-! ### Comparisons (R11, R205 to R210) -/

theorem lessSigned_iff (a b : Word) : lessSigned a b = true ↔ a.toInt < b.toInt := by simp [lessSigned]

theorem geSigned_iff (a b : Word) : geSigned a b = true ↔ a.toInt ≥ b.toInt := by simp [geSigned, lessSigned]

theorem lessUnsigned_iff (a b : Word) : lessUnsigned a b = true ↔ a.toNat < b.toNat := by simp [lessUnsigned]

theorem geUnsigned_iff (a b : Word) : geUnsigned a b = true ↔ a.toNat ≥ b.toNat := by
  simp [geUnsigned, lessUnsigned]

/-! ### The statements of control transfer -/

/-- Settles O34: the jump tests the target before it writes rd. -/
theorem jalJumpsOrHandsOff : Obligations.JalJumpsOrHandsOff := by
  intro s rd off
  rw [← pc_add_jumpOffset]
  exact ⟨jumpsTo_of_exec rfl, handsOff_of_exec_jump rfl⟩

/-- Settles O35: the target is even, so bit 1 alone decides. -/
theorem jalrJumpsOrHandsOff : Obligations.JalrJumpsOrHandsOff := by
  intro s rd rs1 imm target ht
  have heq : (s.reg rs1 + immWord imm) &&& 0xFFFFFFFE#32 = target :=
    BitVec.eq_of_toNat_eq ((jalrTarget_toNat s rs1 imm).trans ht.symm)
  have hexec : exec (.jalr rd rs1 imm) s = jump rd target s := by
    rw [← heq]
    rfl
  have hbit := even_aligned_iff ht
  refine ⟨fun h => jumpsTo_of_exec hexec (hbit.mp h), fun h => handsOff_of_exec_jump hexec fun ha => ?_⟩
  rw [hbit.mpr ha] at h
  cases h

/-- Settles O36: each branch is `branch` on its comparison. -/
theorem branchesFollowTheirConditions : Obligations.BranchesFollowTheirConditions := by
  intro s rs1 rs2 off target ht
  exact ⟨branchRule_of_exec rfl beq_iff_eq ht, branchRule_of_exec rfl bne_iff_ne ht,
    branchRule_of_exec rfl (lessSigned_iff ..) ht, branchRule_of_exec rfl (geSigned_iff ..) ht,
    branchRule_of_exec rfl (lessUnsigned_iff ..) ht, branchRule_of_exec rfl (geUnsigned_iff ..) ht⟩

/-- Settles O37: the named comparison is the branch's with the operands exchanged. -/
theorem swappedBranches : Obligations.SwappedBranches := by
  intro s rs rt off target ht
  obtain ⟨-, -, hblt, hbge, hbltu, hbgeu⟩ := branchesFollowTheirConditions s rt rs off target ht
  exact ⟨hblt, hbge, hbltu, hbgeu⟩

/-! ### Pseudo-instructions that compute (R125) -/

theorem add_immWord_zero (a : Word) : a + immWord 0#12 = a := by
  have hzero : immWord 0#12 = 0#32 := rfl
  rw [hzero, BitVec.add_zero]

theorem xor_immWord_ones (a : Word) : a ^^^ immWord 0xFFF#12 = ~~~a := by
  have hones : immWord 0xFFF#12 = BitVec.allOnes 32 := rfl
  rw [hones, BitVec.xor_allOnes]

/-- Below 1 there is only 0. -/
theorem truthWord_lessUnsigned_one (a : Word) :
    truthWord (lessUnsigned a (immWord 1#12)) = if a = 0#32 then 1#32 else 0#32 := by
  have hone : (immWord 1#12).toNat = 1 := rfl
  have hzero : a.toNat < 1 ↔ a = 0#32 := by rw [Nat.lt_one_iff, ← BitVec.toNat_inj]; rfl
  simp only [truthWord_lessUnsigned, hone, hzero]

/-- Above 0 is every other number. -/
theorem truthWord_zero_lessUnsigned (a : Word) :
    truthWord (lessUnsigned 0#32 a) = if a = 0#32 then 0#32 else 1#32 := by
  have hpos : (0#32).toNat < a.toNat ↔ ¬ a = 0#32 := by rw [← BitVec.toNat_inj]; exact Nat.pos_iff_ne_zero
  simp only [truthWord_lessUnsigned, hpos, ite_not]

/-- Settles O33: the fixed operands make the instructions of R125. -/
theorem pseudoInstructionResults : Obligations.PseudoInstructionResults := by
  intro s rd rs
  refine ⟨?mv, ?seqz, ?snez, ?not⟩
  case mv =>
    have h : WritesRegister (.addi rd rs 0#12) rd (s.reg rs + immWord 0#12) s := writesRegister_of_exec rfl
    rwa [add_immWord_zero] at h
  case seqz =>
    rw [← truthWord_lessUnsigned_one]
    exact writesRegister_of_exec rfl
  case snez =>
    rw [← truthWord_zero_lessUnsigned]
    exact writesRegister_of_exec rfl
  case not =>
    rw [← xor_immWord_ones]
    exact writesRegister_of_exec rfl

/-- Settles O32: the immediate 0 is added to x0 and the sum discarded. -/
theorem nopOnlyAdvances : Obligations.NopOnlyAdvances := by
  refine ⟨rfl, fun s => ?_⟩
  have hexec : exec Pseudo.nop s = writeResult 0#5 (s.reg 0#5 + immWord 0#12) s := rfl
  rw [hexec, writeResult, State.setReg_zero]
  rfl

end Sys2Proof.Machine
end

section
/-! SUPPORT. What every instruction does (spec/00_scope.md R13): it completes, or it raises an exception that
R330 lists for it. The invariants of every step follow from that. -/

namespace Sys2Proof.Machine

/-! ### The loads, each by its width and its extension (R231 to R235) -/

section Loads

variable (rd rs1 : Reg) (imm : BitVec 12) (s : State)

theorem exec_lb : exec (.lb rd rs1 imm) s = load rd rs1 imm 1 (fun v => (BitVec.ofNat 8 v).signExtend 32) s := rfl
theorem exec_lh : exec (.lh rd rs1 imm) s = load rd rs1 imm 2 (fun v => (BitVec.ofNat 16 v).signExtend 32) s := rfl
theorem exec_lw : exec (.lw rd rs1 imm) s = load rd rs1 imm 4 (fun v => BitVec.ofNat 32 v) s := rfl
theorem exec_lbu : exec (.lbu rd rs1 imm) s = load rd rs1 imm 1 (fun v => (BitVec.ofNat 8 v).setWidth 32) s := rfl
theorem exec_lhu : exec (.lhu rd rs1 imm) s = load rd rs1 imm 2 (fun v => (BitVec.ofNat 16 v).setWidth 32) s := rfl

end Loads

/-! ### The outcomes of an instruction -/

/-- What holds whenever an instruction completes. -/
structure Retires (i : Instr) (s t : State) : Prop where
  instret : t.instret = s.instret + 1#64
  handoff : t.handoff = s.handoff
  platform : t.platform = s.platform
  cycle : s.cycle.toNat ≤ t.cycle.toNat
  time : s.time.toNat ≤ t.time.toNat
  opLog : ∃ ops, t.opLog = ops ++ s.opLog
  aligned : s.pc.toNat % 4 = 0 → t.pc.toNat % 4 = 0
  memWf : s.mem.wf = true → t.mem.wf = true
  fetchViewWf : s.fetchView.wf = true → t.fetchView.wf = true
  mem : i.mnemonic ∉ ["SB", "SH", "SW"] → t.mem = s.mem

/-- The instruction raises an exception that is listed for it, and changes nothing else (R330, R338). -/
def RaisesInto (i : Instr) (s t : State) : Prop :=
  ∃ cause info, t = s.raise cause info ∧ Raises i (encode i) cause info s

/-- Every next state of the instruction is one of the two outcomes. -/
def RetiresOrRaises (i : Instr) (s : State) : Prop :=
  ∀ t, exec i s = .next t → Retires i s t ∨ RaisesInto i s t

section Outcomes

variable {i : Instr} {s : State}

theorem retiresOrRaises_of_retires {t : State} (h : exec i s = .next t) (hr : Retires i s t) :
    RetiresOrRaises i s := by
  rintro u hu
  obtain rfl : t = u := Host.Outcome.next.inj (h.symm.trans hu)
  exact .inl hr

theorem retiresOrRaises_of_raises {cause : Cause} {info : Option Word}
    (h : exec i s = .next (s.raise cause info)) (hr : Raises i (encode i) cause info s) : RetiresOrRaises i s := by
  rintro u hu
  obtain rfl : s.raise cause info = u := Host.Outcome.next.inj (h.symm.trans hu)
  exact .inr ⟨cause, info, rfl, hr⟩

theorem retiresOrRaises_of_fault {f : Fault} (h : exec i s = .fault f) : RetiresOrRaises i s := by
  intro t ht
  cases h.symm.trans ht

theorem retires_setReg (rd : Reg) (v : Word) {next : Word}
    (hn : s.pc.toNat % 4 = 0 → next.toNat % 4 = 0) : Retires i s ((s.setReg rd v).retire next) where
  instret := by simp
  handoff := by simp
  platform := by simp
  cycle := by simp
  time := by simp
  opLog := ⟨[], by simp⟩
  aligned := by simpa using hn
  memWf := by simp
  fetchViewWf := by simp
  mem := by simp

theorem retiresOrRaises_writeResult {rd : Reg} {v : Word} (h : exec i s = writeResult rd v s) :
    RetiresOrRaises i s :=
  retiresOrRaises_of_retires h (retires_setReg rd v nextPc_aligned)

theorem retiresOrRaises_jump {rd : Reg} {target : Word} (h : exec i s = jump rd target s)
    (hgoes : GoesFor i target s) : RetiresOrRaises i s := by
  rcases jump_cases rd target s with ⟨ha, hj⟩ | ⟨hn, hj⟩
  · exact retiresOrRaises_of_retires (h.trans hj) (retires_setReg rd _ fun _ => ha)
  · exact retiresOrRaises_of_raises (h.trans hj) ⟨target, hgoes, hn, rfl⟩

theorem retiresOrRaises_branch {taken : Bool} {off : BitVec 13} (h : exec i s = branch taken off s)
    (hgoes : taken = true → GoesFor i (s.pc + branchOffset off) s) : RetiresOrRaises i s := by
  rcases branch_cases taken off s with ⟨-, hb⟩ | ⟨-, ha, hb⟩ | ⟨ht, hn, hb⟩
  · exact retiresOrRaises_of_retires (h.trans hb) (by simpa using retires_setReg 0#5 0#32 nextPc_aligned)
  · exact retiresOrRaises_of_retires (h.trans hb) (by simpa using retires_setReg 0#5 0#32 fun _ => ha)
  · exact retiresOrRaises_of_raises (h.trans hb) ⟨_, hgoes ht, hn, rfl⟩

theorem retiresOrRaises_load {rd rs1 : Reg} {imm : BitVec 12} {n : Nat} {extend : Nat → Word}
    (h : exec i s = load rd rs1 imm n extend s) (hl : LoadsAt i (effectiveAddr rs1 imm s) n s) :
    RetiresOrRaises i s := by
  rcases load_cases rd rs1 imm n extend s with ⟨-, bytes, -, -, he⟩ | ⟨-, b, -, he⟩ | ⟨hd, he⟩
  · refine retiresOrRaises_of_retires (h.trans he) ?_
    exact
      { instret := by simp
        handoff := by simp
        platform := by simp
        cycle := by simp
        time := by simp
        opLog := ⟨[_], by simp; rfl⟩
        aligned := by simpa using nextPc_aligned
        memWf := by simp
        fetchViewWf := by simp
        mem := by simp }
  · exact retiresOrRaises_of_fault (h.trans he)
  · exact retiresOrRaises_of_raises (h.trans he) ⟨_, n, hl, hd, rfl⟩

theorem retiresOrRaises_store {rs2 rs1 : Reg} {imm : BitVec 12} {n : Nat} (h : exec i s = store rs2 rs1 imm n s)
    (hs : StoresAt i (effectiveAddr rs1 imm s) n s) (hm : i.mnemonic ∈ ["SB", "SH", "SW"]) :
    RetiresOrRaises i s := by
  rcases store_cases rs2 rs1 imm n s with ⟨-, he⟩ | ⟨hd, he⟩
  · refine retiresOrRaises_of_retires (h.trans he) ?_
    exact
      { instret := by simp
        handoff := by simp
        platform := by simp
        cycle := by simp
        time := by simp
        opLog := ⟨[_], by simp; rfl⟩
        aligned := by simpa using nextPc_aligned
        memWf := s.storeBytes_mem_wf _ _
        fetchViewWf := s.storeBytes_fetchView_wf _ _
        mem := fun hn => absurd hm hn }
  · exact retiresOrRaises_of_raises (h.trans he) ⟨_, n, hs, hd, rfl⟩

theorem retiresOrRaises_csr {op : CsrOp} {csr : BitVec 12} {rd : Reg} {field : BitVec 5} {operand : Word}
    (h : exec i s = csrInstruction op (encode i) csr rd field operand s)
    (hr : csrAt csr = none ∨ csrWrites op field = true → RefusedCsr i) : RetiresOrRaises i s := by
  rcases csrInstruction_cases op (encode i) csr rd field operand s with ⟨hw, he⟩ | ⟨c, -, -, he⟩
  · exact retiresOrRaises_of_raises (h.trans he) ⟨hr hw, rfl⟩
  · refine retiresOrRaises_of_retires (h.trans he) ?_
    obtain ⟨-, -, hinstret, hmem, hview, hlog, hhandoff, hplatform⟩ := csrRead_rest c s
    obtain ⟨hcycle, htime⟩ := csrRead_monotone c s
    exact
      { instret := by simp [hinstret]
        handoff := by simp [hhandoff]
        platform := by simp [hplatform]
        cycle := by simpa using hcycle
        time := by simpa using htime
        opLog := ⟨[], by simp [hlog]⟩
        aligned := by simpa using nextPc_aligned
        memWf := by simp [hmem]
        fetchViewWf := by simp [hview]
        mem := by simp [hmem] }

theorem retiresOrRaises_fence (pred succ : FenceSet) (s : State) : RetiresOrRaises (.fence pred succ) s := by
  refine retiresOrRaises_of_retires (t := (s.observe (.fence pred succ)).retire s.nextPc) rfl ?_
  exact
    { instret := rfl
      handoff := rfl
      platform := rfl
      cycle := le_rfl
      time := le_rfl
      opLog := ⟨[.fence pred succ], rfl⟩
      aligned := nextPc_aligned
      memWf := id
      fetchViewWf := id
      mem := fun _ => rfl }

theorem retiresOrRaises_fenceI (s : State) : RetiresOrRaises .fenceI s := by
  refine retiresOrRaises_of_retires (t := { s with fetchView := FetchView.empty }.retire s.nextPc) rfl ?_
  exact
    { instret := rfl
      handoff := rfl
      platform := rfl
      cycle := le_rfl
      time := le_rfl
      opLog := ⟨[], rfl⟩
      aligned := nextPc_aligned
      memWf := id
      fetchViewWf := fun _ => FetchView.wf_empty
      mem := fun _ => rfl }

end Outcomes

/-! ### CSR instructions that are refused (R35, R287, R289) -/

theorem csrAt_eq_none_iff (csr : BitVec 12) : csrAt csr = none ↔
    csr ∉ [0xC00#12, 0xC01#12, 0xC02#12, 0xC80#12, 0xC81#12, 0xC82#12] := by
  simp only [csrAt, List.mem_cons, List.not_mem_nil, or_false, not_or]
  split_ifs <;> simp_all

/-- An instruction that may write is refused where its field is not 0 or its CSR is absent. -/
theorem field_or_absent_of_refused {op : CsrOp} (hop : op ≠ .swap) {csr : BitVec 12} {field : BitVec 5}
    (h : csrAt csr = none ∨ csrWrites op field = true) :
    field ≠ 0#5 ∨ csr ∉ [0xC00#12, 0xC01#12, 0xC02#12, 0xC80#12, 0xC81#12, 0xC82#12] := by
  rcases h with h | h
  · exact .inr ((csrAt_eq_none_iff csr).mp h)
  · cases op with
    | swap => exact absurd rfl hop
    | setBits => exact .inl (bne_iff_ne.mp h)
    | clearBits => exact .inl (bne_iff_ne.mp h)

/-! ### Every instruction -/

/-- Every instruction completes, or raises an exception that R330 lists for it. -/
theorem exec_retiresOrRaises (i : Instr) (s : State) : RetiresOrRaises i s := by
  cases i with
  | lui rd imm20 => exact retiresOrRaises_writeResult rfl
  | auipc rd imm20 => exact retiresOrRaises_writeResult rfl
  | jal rd off => exact retiresOrRaises_jump rfl (.inl ⟨rd, off, rfl, pc_add_jumpOffset s off⟩)
  | jalr rd rs1 imm =>
    exact retiresOrRaises_jump rfl (.inr (.inl ⟨rd, rs1, imm, rfl, jalrTarget_toNat s rs1 imm⟩))
  | beq rs1 rs2 off =>
    exact retiresOrRaises_branch rfl fun h =>
      .inr (.inr ⟨rs1, rs2, off, pc_add_branchOffset s off, .inl ⟨rfl, beq_iff_eq.mp h⟩⟩)
  | bne rs1 rs2 off =>
    exact retiresOrRaises_branch rfl fun h =>
      .inr (.inr ⟨rs1, rs2, off, pc_add_branchOffset s off, .inr (.inl ⟨rfl, bne_iff_ne.mp h⟩)⟩)
  | blt rs1 rs2 off =>
    exact retiresOrRaises_branch rfl fun h =>
      .inr (.inr ⟨rs1, rs2, off, pc_add_branchOffset s off, .inr (.inr (.inl ⟨rfl, (lessSigned_iff ..).mp h⟩))⟩)
  | bge rs1 rs2 off =>
    exact retiresOrRaises_branch rfl fun h => .inr (.inr ⟨rs1, rs2, off, pc_add_branchOffset s off,
      .inr (.inr (.inr (.inl ⟨rfl, (geSigned_iff ..).mp h⟩)))⟩)
  | bltu rs1 rs2 off =>
    exact retiresOrRaises_branch rfl fun h => .inr (.inr ⟨rs1, rs2, off, pc_add_branchOffset s off,
      .inr (.inr (.inr (.inr (.inl ⟨rfl, (lessUnsigned_iff ..).mp h⟩))))⟩)
  | bgeu rs1 rs2 off =>
    exact retiresOrRaises_branch rfl fun h => .inr (.inr ⟨rs1, rs2, off, pc_add_branchOffset s off,
      .inr (.inr (.inr (.inr (.inr ⟨rfl, (geUnsigned_iff ..).mp h⟩))))⟩)
  | lb rd rs1 imm => exact retiresOrRaises_load (exec_lb ..) ⟨rd, rs1, imm, rfl, by simp⟩
  | lh rd rs1 imm => exact retiresOrRaises_load (exec_lh ..) ⟨rd, rs1, imm, rfl, by simp⟩
  | lw rd rs1 imm => exact retiresOrRaises_load (exec_lw ..) ⟨rd, rs1, imm, rfl, by simp⟩
  | lbu rd rs1 imm => exact retiresOrRaises_load (exec_lbu ..) ⟨rd, rs1, imm, rfl, by simp⟩
  | lhu rd rs1 imm => exact retiresOrRaises_load (exec_lhu ..) ⟨rd, rs1, imm, rfl, by simp⟩
  | sb rs2 rs1 imm => exact retiresOrRaises_store rfl ⟨rs2, rs1, imm, rfl, by simp⟩ (by simp [Instr.mnemonic])
  | sh rs2 rs1 imm => exact retiresOrRaises_store rfl ⟨rs2, rs1, imm, rfl, by simp⟩ (by simp [Instr.mnemonic])
  | sw rs2 rs1 imm => exact retiresOrRaises_store rfl ⟨rs2, rs1, imm, rfl, by simp⟩ (by simp [Instr.mnemonic])
  | addi rd rs1 imm => exact retiresOrRaises_writeResult rfl
  | slti rd rs1 imm => exact retiresOrRaises_writeResult rfl
  | sltiu rd rs1 imm => exact retiresOrRaises_writeResult rfl
  | xori rd rs1 imm => exact retiresOrRaises_writeResult rfl
  | ori rd rs1 imm => exact retiresOrRaises_writeResult rfl
  | andi rd rs1 imm => exact retiresOrRaises_writeResult rfl
  | slli rd rs1 shamt => exact retiresOrRaises_writeResult rfl
  | srli rd rs1 shamt => exact retiresOrRaises_writeResult rfl
  | srai rd rs1 shamt => exact retiresOrRaises_writeResult rfl
  | add rd rs1 rs2 => exact retiresOrRaises_writeResult rfl
  | sub rd rs1 rs2 => exact retiresOrRaises_writeResult rfl
  | sll rd rs1 rs2 => exact retiresOrRaises_writeResult rfl
  | slt rd rs1 rs2 => exact retiresOrRaises_writeResult rfl
  | sltu rd rs1 rs2 => exact retiresOrRaises_writeResult rfl
  | xor rd rs1 rs2 => exact retiresOrRaises_writeResult rfl
  | srl rd rs1 rs2 => exact retiresOrRaises_writeResult rfl
  | sra rd rs1 rs2 => exact retiresOrRaises_writeResult rfl
  | or rd rs1 rs2 => exact retiresOrRaises_writeResult rfl
  | and rd rs1 rs2 => exact retiresOrRaises_writeResult rfl
  | fence pred succ => exact retiresOrRaises_fence pred succ s
  | fenceI => exact retiresOrRaises_fenceI s
  | ecall => exact retiresOrRaises_of_raises rfl ⟨rfl, rfl⟩
  | ebreak => exact retiresOrRaises_of_raises rfl ⟨rfl, rfl⟩
  | csrrw rd csr rs1 => exact retiresOrRaises_csr rfl fun _ => ⟨rd, csr, rs1, .inl (by simp)⟩
  | csrrs rd csr rs1 =>
    exact retiresOrRaises_csr rfl fun h =>
      ⟨rd, csr, rs1, .inr ⟨by simp, field_or_absent_of_refused (by decide) h⟩⟩
  | csrrc rd csr rs1 =>
    exact retiresOrRaises_csr rfl fun h =>
      ⟨rd, csr, rs1, .inr ⟨by simp, field_or_absent_of_refused (by decide) h⟩⟩
  | csrrwi rd csr zimm => exact retiresOrRaises_csr rfl fun _ => ⟨rd, csr, zimm, .inl (by simp)⟩
  | csrrsi rd csr zimm =>
    exact retiresOrRaises_csr rfl fun h =>
      ⟨rd, csr, zimm, .inr ⟨by simp, field_or_absent_of_refused (by decide) h⟩⟩
  | csrrci rd csr zimm =>
    exact retiresOrRaises_csr rfl fun h =>
      ⟨rd, csr, zimm, .inr ⟨by simp, field_or_absent_of_refused (by decide) h⟩⟩

end Sys2Proof.Machine
end

section
/-! SUPPORT. What every step keeps (spec/00_scope.md R13, spec/60_exceptions.md R338 to R340), and the reset state
(spec/10_state.md R43 to R48). -/

namespace Sys2Proof.Machine

/-! ### What a raised exception depends on -/

/-- An oracle query changes nothing that an exception depends on. -/
theorem raises_countDraw {i : Instr} {w : Word} {cause : Cause} {info : Option Word} {s : State} (d : Bool)
    (h : Raises i w cause info (s.countDraw d)) : Raises i w cause info s := by
  cases d with
  | false => exact h
  | true => exact h

/-- Under MISC-MEM there are FENCE and FENCE.I alone. -/
theorem decodeWord_miscMem {w : Word} {i : Instr} (hd : decodeWord w = .ok i) (ho : opcodeField w = 0x0F#7) :
    (∃ pred succ, i = .fence pred succ) ∨ i = .fenceI := by
  have henc : ¬ EncodesNothing w := fun hn => by
    cases hd.symm.trans ((illegalWordsAreExactlyTheListed w).mpr hn)
  have hf3 : funct3Field w = 0#3 ∨ funct3Field w = 1#3 := by
    by_contra hf3
    have hf3' : funct3Field w ∉ [0#3, 1#3] := by simpa using hf3
    exact henc (.inr (.inr (.inr (.inr (.inr (.inl ⟨ho, hf3'⟩))))))
  have hmask := and_mask_funct3 w
  rw [ho] at hmask
  obtain ⟨hfence, hfenceI⟩ := reservedFenceFieldsAreIgnored w
  rcases hf3 with h | h <;> rw [h] at hmask
  · exact .inl ⟨_, _, Except.ok.inj (hd.symm.trans (hfence hmask))⟩
  · exact .inr (Except.ok.inj (hd.symm.trans (hfenceI hmask)))

theorem not_refusedCsr_fence (pred succ : FenceSet) : ¬ RefusedCsr (.fence pred succ) := by
  simp [RefusedCsr]

theorem not_refusedCsr_fenceI : ¬ RefusedCsr .fenceI := by
  simp [RefusedCsr]

/-- The word that a refused CSR instruction reports is the fetched one (R289). -/
theorem encode_eq_of_refusedCsr {w : Word} {i : Instr} (hd : decodeWord w = .ok i) (hr : RefusedCsr i) :
    encode i = w := by
  refine (encodeOfDecodeIsTheWord w i hd).2 fun ho => ?_
  rcases decodeWord_miscMem hd ho with ⟨pred, succ, rfl⟩ | rfl
  · exact not_refusedCsr_fence pred succ hr
  · exact not_refusedCsr_fenceI hr

theorem raises_fetched {w : Word} {i : Instr} (hd : decodeWord w = .ok i) {cause : Cause} {info : Option Word}
    {s : State} (h : Raises i (encode i) cause info s) : Raises i w cause info s := by
  cases cause with
  | illegalInstruction =>
    obtain ⟨hr, hinfo⟩ := h
    rw [encode_eq_of_refusedCsr hd hr] at hinfo
    exact ⟨hr, hinfo⟩
  | instructionAddressMisaligned | instructionAccessFault | loadAccessFault | storeAccessFault
  | environmentCall | breakpoint => exact h

/-- What an instruction raises is listed for it (R330). -/
theorem mayRaise_of_raises {i : Instr} {w : Word} {cause : Cause} {info : Option Word} {s : State}
    (h : Raises i w cause info s) : mayRaise i cause = true := by
  cases cause with
  | instructionAddressMisaligned =>
    obtain ⟨target, hgoes, -⟩ := h
    rcases hgoes with ⟨rd, off, rfl, -⟩ | ⟨rd, rs1, imm, rfl, -⟩ | ⟨rs1, rs2, off, -, hb⟩
    · simp [mayRaise, Instr.mnemonic]
    · simp [mayRaise, Instr.mnemonic]
    · rcases hb with ⟨rfl, -⟩ | ⟨rfl, -⟩ | ⟨rfl, -⟩ | ⟨rfl, -⟩ | ⟨rfl, -⟩ | ⟨rfl, -⟩ <;>
        simp [mayRaise, Instr.mnemonic]
  | illegalInstruction =>
    obtain ⟨⟨rd, csr, field, hi⟩, -⟩ := h
    simp only [List.mem_cons, List.not_mem_nil, or_false] at hi
    rcases hi with (rfl | rfl) | ⟨rfl | rfl | rfl | rfl, -⟩ <;> simp [mayRaise, Instr.mnemonic]
  | instructionAccessFault => exact h.elim
  | loadAccessFault =>
    obtain ⟨a, n, ⟨rd, rs1, imm, -, hi⟩, -⟩ := h
    simp only [List.mem_cons, List.not_mem_nil, or_false] at hi
    rcases hi with ⟨-, rfl | rfl⟩ | ⟨-, rfl | rfl⟩ | ⟨-, rfl⟩ <;> simp [mayRaise, Instr.mnemonic]
  | storeAccessFault =>
    obtain ⟨a, n, ⟨rs2, rs1, imm, -, hi⟩, -⟩ := h
    rcases hi with ⟨-, rfl⟩ | ⟨-, rfl⟩ | ⟨-, rfl⟩ <;> simp [mayRaise, Instr.mnemonic]
  | environmentCall =>
    obtain ⟨rfl, -⟩ := h
    simp [mayRaise, Instr.mnemonic]
  | breakpoint =>
    obtain ⟨rfl, -⟩ := h
    simp [mayRaise, Instr.mnemonic]

/-! ### The outcomes of a step -/

/-- Everything a step can lead to: the environment resumed the hart, an instruction completed, or the hart
stopped at a hand-off that fits. -/
theorem step_outcomes {s t : State} (h : step s = .next t) :
    (∃ trap r, s.handoff = some trap ∧ Config.eeiResume trap s = some r ∧ t = s.resume r.val) ∨
    (s.handoff = none ∧ ∃ i d, Retires i (s.countDraw d) t) ∨
    (s.handoff = none ∧ ∃ cause info d, Trap.Fits ⟨cause, s.pc, info⟩ s ∧
      t = (s.countDraw d).raise cause info) := by
  cases hs : s.handoff with
  | some trap =>
    rcases step_next_cases h with ⟨trap', r, hs', hr, ht⟩ | ⟨hn, -⟩ | ⟨hn, -⟩ | ⟨hn, -⟩
    · obtain rfl := Option.some.inj (hs'.symm.trans hs)
      exact .inl ⟨trap', r, rfl, hr, ht⟩
    all_goals cases hs.symm.trans hn
  | none =>
    rcases fetch_cases s with ⟨ha, bytes, -, -, hf⟩ | ⟨-, b, -, hf⟩ | ⟨hd, hf⟩
    · obtain ⟨-, hw⟩ := fetchesWord_of_fetch hf
      rcases decodeWord_cases (BitVec.ofNat 32 (leValue bytes)) with ⟨row, -, -, hdec⟩ | ⟨-, hill⟩
      · rw [step_eq_exec hs hf hdec] at h
        rcases exec_retiresOrRaises _ _ t h with hret | ⟨cause, info, rfl, hr⟩
        · exact .inr (.inl ⟨rfl, _, _, hret⟩)
        · have hraise := raises_fetched hdec (raises_countDraw _ hr)
          exact .inr (.inr ⟨rfl, cause, info, _, ⟨rfl, .inr ⟨ha, _, hw, .inr ⟨_, hdec, hraise⟩⟩⟩, rfl⟩)
      · have hn := (illegalWordsAreExactlyTheListed _).mp hill
        rw [step_eq_trap_of_illegal hs hf hn, trap, Host.Outcome.next.injEq] at h
        exact .inr (.inr ⟨rfl, _, _, _, ⟨rfl, .inr ⟨ha, _, hw, .inl ⟨hn, rfl, rfl⟩⟩⟩, h.symm⟩)
    · cases (step_eq_fault_of_noValue hs hf).symm.trans h
    · rw [step_eq_trap_of_denied hs hf, trap, Host.Outcome.next.injEq] at h
      exact .inr (.inr ⟨rfl, _, _, false, ⟨rfl, .inl ⟨hd, rfl, rfl⟩⟩, h.symm⟩)

/-! ### The statements about every step -/

theorem inv_resume (s : State) (r : { r : Resumption // r.wf = true }) : Inv (s.resume r.val) := by
  obtain ⟨r, hr⟩ := r
  simp only [Resumption.wf, Bool.and_eq_true, decide_eq_true_eq] at hr
  obtain ⟨⟨hpc, hmem⟩, hview⟩ := hr
  exact ⟨hpc, hmem, hview, by simp⟩

theorem inv_raise {s : State} (h : Inv s) (cause : Cause) (info : Option Word) (d : Bool) :
    Inv ((s.countDraw d).raise cause info) := by
  obtain ⟨hpc, hmem, hview, -⟩ := h
  refine ⟨by simpa using hpc, by simpa using hmem, by simpa using hview, ?_⟩
  intro t ht
  obtain rfl := Option.some.inj ht
  rfl

/-- Settles O17: a completed instruction goes to a multiple of 4 and keeps the canonical forms, a hand-off changes
nothing and records the pc, and the environment's answer is well formed. -/
theorem everyStepKeepsTheInvariant : Obligations.EveryStepKeepsTheInvariant := by
  intro s t hinv h
  rcases step_outcomes h with ⟨-, r, -, -, rfl⟩ | ⟨hs, i, d, hret⟩ | ⟨-, cause, info, d, -, rfl⟩
  · exact inv_resume s r
  · obtain ⟨hpc, hmem, hview, -⟩ := hinv
    refine ⟨hret.aligned (by simpa using hpc), hret.memWf (by simpa using hmem),
      hret.fetchViewWf (by simpa using hview), ?_⟩
    simp [hret.handoff, hs]
  · exact inv_raise hinv cause info d

/-- Settles O18: the two outcomes of a stepping hart. -/
theorem everyStepRetiresOrHandsOffPrecisely : Obligations.EveryStepRetiresOrHandsOffPrecisely := by
  intro s t hs h
  rcases step_outcomes h with ⟨trap, -, hs', -⟩ | ⟨-, i, d, hret⟩ | ⟨-, cause, info, d, hfits, rfl⟩
  · cases hs.symm.trans hs'
  · exact .inl ⟨by simpa [hs] using hret.handoff, by simpa using hret.instret⟩
  · refine .inr ⟨_, hfits, ?_⟩
    cases d <;> rfl

/-- Settles O19: a completed instruction does not set a counter back, and the others leave both. -/
theorem countersNeverRunBack : Obligations.CountersNeverRunBack := by
  intro s t h
  rcases step_outcomes h with ⟨-, r, -, -, rfl⟩ | ⟨-, i, d, hret⟩ | ⟨-, cause, info, d, -, rfl⟩
  · simp
  · exact ⟨by simpa using hret.cycle, by simpa using hret.time⟩
  · simp

/-- Settles O20: no outcome of a step touches the platform. -/
theorem platformNeverChanges : Obligations.PlatformNeverChanges := by
  intro s t h
  rcases step_outcomes h with ⟨-, r, -, -, rfl⟩ | ⟨-, i, d, hret⟩ | ⟨-, cause, info, d, -, rfl⟩
  · simp
  · simpa using hret.platform
  · simp

/-- Settles O21: an instruction that completes and is no store keeps memory, and a hand-off changes nothing. -/
theorem onlyStoresChangeMemory : Obligations.OnlyStoresChangeMemory := by
  intro i s t hi h a _
  rcases exec_retiresOrRaises i s t h with hret | ⟨cause, info, rfl, -⟩
  · rw [hret.mem hi]
  · rfl

/-- Settles O22: an instruction that stops the hart has raised an exception listed for it. -/
theorem instructionsRaiseOnlyTheirExceptions : Obligations.InstructionsRaiseOnlyTheirExceptions := by
  intro i s t trap hs h ht
  rcases exec_retiresOrRaises i s t h with hret | ⟨cause, info, rfl, hr⟩
  · cases (hret.handoff.trans hs).symm.trans ht
  · obtain rfl := Option.some.inj ht
    exact mayRaise_of_raises hr

/-- Settles O59: the two outcomes of a stepping hart, read as numbers. -/
theorem instretCountsRetiredSteps : Obligations.InstretCountsRetiredSteps := by
  intro s t hs h
  rcases everyStepRetiresOrHandsOffPrecisely s t hs h with ⟨ht, hi⟩ | ⟨trap, -, ht⟩
  · rw [if_pos ht, hi, BitVec.toNat_add]
    rfl
  · have hsome : t.handoff = some trap := by rw [ht]
    have hinstret : t.instret = s.instret := by rw [ht]
    rw [hsome, if_neg (by simp), hinstret, Nat.add_zero, Nat.mod_eq_of_lt s.instret.isLt]

/-! ### Reset -/

theorem resetPlatform_isIO (a : Word) : Config.resetPlatform.isIO a = false := by
  unfold Platform.isIO
  split
  · next r hr =>
    have hmem := List.mem_of_find?_eq_some hr
    simp only [Config.resetPlatform, List.mem_singleton] at hmem
    rw [hmem]
  · rfl

/-- Settles O15: each field at reset, and the one region of the platform is not I/O. -/
theorem resetStateIsAsSpecified : Obligations.ResetStateIsAsSpecified :=
  ⟨rfl, rfl, fun _ => rfl, FetchView.older_empty, rfl, rfl, resetPlatform_isIO⟩

/-- Settles O16: empty memory and fetch view are canonical, and the hart is stepping. -/
theorem resetMeetsTheInvariant : Obligations.ResetMeetsTheInvariant :=
  ⟨rfl, Memory.wf_reset, FetchView.wf_empty, fun _ h => nomatch h⟩

end Sys2Proof.Machine
end

section
/-! SUPPORT. Loads and stores (spec/42_load_store.md R230 to R240, spec/20_memory.md R61 to R77): which kinds of
byte an access touches, what a load gives, and what a store leaves. -/

namespace Sys2Proof.Machine

/-! ### Which kinds of byte an access touches (R76) -/

/-- Whether some of the `n` bytes at `a` is I/O, and whether some is memory. -/
def Touches (a : Word) (n : Nat) (s : State) (io mem : Bool) : Prop :=
  (byteAddrs a n).any (fun b => s.platform.isIO b) = io ∧ (byteAddrs a n).any (fun b => !s.platform.isIO b) = mem

section Kinds

variable {a : Word} {n : Nat} {s : State}

theorem any_byteAddrs_true (p : Word → Bool) {k : Nat} (hk : k < n) (h : p (byteAddr a k) = true) :
    (byteAddrs a n).any p = true :=
  List.any_eq_true.mpr ⟨_, mem_byteAddrs.mpr ⟨k, hk, rfl⟩, h⟩

theorem touches_of_notIO (hn : 0 < n) (h : NotIO a n s) : Touches a n s false true :=
  ⟨(any_byteAddrs_false _).mpr h, any_byteAddrs_true _ hn (by simp [h 0 hn])⟩

theorem touches_of_allIO (hn : 0 < n) (h : AllIO a n s) : Touches a n s true false :=
  ⟨any_byteAddrs_true _ hn (h 0 hn), (any_byteAddrs_false _).mpr fun k hk => by simp [h k hk]⟩

theorem touches_of_partlyIO (h : PartlyIO a n s) : Touches a n s true true := by
  obtain ⟨⟨j, hj, hio⟩, k, hk, hmem⟩ := h
  exact ⟨any_byteAddrs_true _ hj hio, any_byteAddrs_true _ hk (by simp [hmem])⟩

theorem loadClasses_of_touches {io mem : Bool} (h : Touches a n s io mem) :
    loadClasses s.platform (byteAddrs a n) = { i := io, o := false, r := mem, w := false } := by
  obtain ⟨hio, hmem⟩ := h
  simp [loadClasses, hio, hmem]

theorem storeClasses_of_touches {io mem : Bool} (h : Touches a n s io mem) :
    storeClasses s.platform (byteAddrs a n) = { i := false, o := io, r := false, w := mem } := by
  obtain ⟨hio, hmem⟩ := h
  simp [storeClasses, hio, hmem]

end Kinds

/-! ### What a load gives (R62, R231 to R235) -/

theorem givesByte_iff (a : Word) (k : Nat) (b : Byte) (s : State) :
    GivesByte a k b s ↔ loadByte s k (byteAddr a k) = some b := by
  unfold GivesByte loadByte
  cases s.platform.isIO (byteAddr a k) <;> simp [eq_comm]

theorem givesByte_of_notIO {a : Word} {n k : Nat} {b : Byte} {s : State} (h : NotIO a n s) (hk : k < n)
    (hb : s.mem.read (byteAddr a k) = some b) : GivesByte a k b s :=
  ⟨fun hio => by simp [h k hk] at hio, fun _ => hb⟩

theorem givesByte_of_allIO {a : Word} {n k : Nat} {b : Byte} {s : State} (h : AllIO a n s) (hk : k < n)
    (hb : b = Config.deviceByte s.draws k) : GivesByte a k b s :=
  ⟨fun _ => hb, fun hio => by simp [h k hk] at hio⟩

theorem State.countDraw_draws (s : State) (d : Bool) : (s.countDraw d).draws = s.draws + d.toNat := by
  cases d <;> rfl

section Load

variable {i : Instr} {rd rs1 : Reg} {imm : BitVec 12} {n : Nat} {extend : Nat → Word} {a : Word}
  {bytes : List Byte} {s : State} {io mem : Bool}

/-- A load of bytes that all have a value. -/
theorem loadsAs_of_exec (hexec : exec i s = load rd rs1 imm n extend s) (ha : a = effectiveAddr rs1 imm s)
    (hacc : Accessible .load a n s) (ht : Touches a n s io mem) (hl : bytes.length = n)
    (hb : ∀ k (hk : k < bytes.length), GivesByte a k bytes[k] s) :
    LoadsAs { i := io, o := false, r := mem, w := false } io.toNat i rd (extend (leValue bytes)) a bytes s := by
  subst ha
  have hg : gather (loadByte s) 0 (byteAddrs (effectiveAddr rs1 imm s) n) = .ok bytes := by
    refine gather_ok.mpr ⟨by simpa using hl, fun k hk => ?_⟩
    have hk' : k < bytes.length := by simpa [hl] using hk
    rw [byteAddrs_getElem, Nat.zero_add, List.getElem?_eq_getElem hk']
    exact (givesByte_iff ..).mp (hb k hk')
  rcases load_cases rd rs1 imm n extend s with ⟨-, bytes', hg', -, he⟩ | ⟨-, b, hg', -⟩ | ⟨hd, -⟩
  · obtain rfl : bytes = bytes' := Access.ok.inj (hg.symm.trans hg')
    rw [loadClasses_of_touches ht, ht.1] at he
    refine ⟨_, hexec.trans he, by simp, ⟨by simp [State.nextPc], by simp, by simp⟩, ?regs, fun _ _ => by simp,
      ⟨by simp, by simp⟩, by simp, by simp, by simp [State.countDraw_draws], by simp⟩
    intro r hr
    rw [State.retire_reg, State.reg_setReg_ne _ rd _ (List.ne_of_not_mem_cons hr), State.observe_reg,
      State.countDraw_reg]
  · cases hg.symm.trans hg'
  · exact absurd hacc hd

theorem handsOff_of_exec_load (hexec : exec i s = load rd rs1 imm n extend s) (ha : a = effectiveAddr rs1 imm s)
    (hd : ¬ Accessible .load a n s) : HandsOff i .loadAccessFault (some a) s := by
  subst ha
  rcases load_cases rd rs1 imm n extend s with ⟨hacc, -⟩ | ⟨hacc, -⟩ | ⟨-, he⟩
  · exact absurd hacc hd
  · exact absurd hacc hd
  · exact hexec.trans he

/-- A load stops at its first byte without a value. -/
theorem faults_of_exec_load (hexec : exec i s = load rd rs1 imm n extend s) (ha : a = effectiveAddr rs1 imm s)
    (hacc : Accessible .load a n s) {k : Nat} (hk : k < n)
    (hbelow : ∀ j < k, loadByte s j (byteAddr a j) ≠ none) (hnone : loadByte s k (byteAddr a k) = none) :
    exec i s = .fault (.unwrittenByte (byteAddr a k)) := by
  subst ha
  have hg : gather (loadByte s) 0 (byteAddrs (effectiveAddr rs1 imm s) n) =
      .noValue (byteAddr (effectiveAddr rs1 imm s) k) := by
    have := gather_noValue (f := loadByte s) (i := 0) (as := byteAddrs (effectiveAddr rs1 imm s) n) (k := k)
      (by simpa using hk) (by simpa using hbelow) (by simpa using hnone)
    rwa [byteAddrs_getElem] at this
  rcases load_cases rd rs1 imm n extend s with ⟨-, bytes, hg', -⟩ | ⟨-, b, hg', he⟩ | ⟨hd, -⟩
  · cases hg.symm.trans hg'
  · obtain rfl := Access.noValue.inj (hg.symm.trans hg')
    exact hexec.trans he
  · exact absurd hacc hd

end Load

/-! ### The number that bytes stand for (R61) -/

theorem toNat_append_byte {n : Nat} (x : BitVec n) (b : Byte) : (x ++ b).toNat = b.toNat + 256 * x.toNat := by
  rw [BitVec.toNat_append, ← Nat.shiftLeft_add_eq_or_of_lt b.isLt, Nat.shiftLeft_eq]
  omega

theorem leValue_byte (b0 : Byte) : leValue [b0] = b0.toNat := by simp [leValue]

theorem leValue_half (b0 b1 : Byte) : leValue [b0, b1] = (b1 ++ b0).toNat := by
  simp [leValue, toNat_append_byte]

theorem leValue_word (b0 b1 b2 b3 : Byte) : leValue [b0, b1, b2, b3] = (b3 ++ b2 ++ b1 ++ b0).toNat := by
  simp [leValue, toNat_append_byte]

theorem signExtend_ofNat_toNat {n : Nat} (b : BitVec n) :
    (BitVec.ofNat n b.toNat).signExtend 32 = BitVec.ofInt 32 b.toInt := by
  rw [BitVec.ofNat_toNat, BitVec.setWidth_eq]
  rfl

theorem setWidth_ofNat_toNat {n : Nat} (b : BitVec n) :
    (BitVec.ofNat n b.toNat).setWidth 32 = BitVec.ofNat 32 b.toNat := by
  rw [BitVec.ofNat_toNat, BitVec.setWidth_eq, BitVec.ofNat_toNat]

/-! ### The five loads, whichever kinds of byte they touch -/

section Loads

variable {rd rs1 : Reg} {imm : BitVec 12} {a : Word} {b0 b1 b2 b3 : Byte} {s : State} {io mem : Bool}
  (ha : a = effectiveAddr rs1 imm s)

include ha

theorem byteLoads (hacc : Accessible .load a 1 s) (ht : Touches a 1 s io mem) (h0 : GivesByte a 0 b0 s) :
    LoadsAs ⟨io, false, mem, false⟩ io.toNat (.lb rd rs1 imm) rd (BitVec.ofInt 32 b0.toInt) a [b0] s ∧
    LoadsAs ⟨io, false, mem, false⟩ io.toNat (.lbu rd rs1 imm) rd (BitVec.ofNat 32 b0.toNat) a [b0] s := by
  have hb : ∀ k (hk : k < [b0].length), GivesByte a k [b0][k] s := fun k hk => by
    obtain rfl : k = 0 := by simpa using hk
    exact h0
  rw [← signExtend_ofNat_toNat, ← setWidth_ofNat_toNat, ← leValue_byte]
  exact ⟨loadsAs_of_exec (exec_lb ..) ha hacc ht rfl hb, loadsAs_of_exec (exec_lbu ..) ha hacc ht rfl hb⟩

theorem halfLoads (hacc : Accessible .load a 2 s) (ht : Touches a 2 s io mem) (h0 : GivesByte a 0 b0 s)
    (h1 : GivesByte a 1 b1 s) :
    LoadsAs ⟨io, false, mem, false⟩ io.toNat (.lh rd rs1 imm) rd (BitVec.ofInt 32 (b1 ++ b0).toInt) a
      [b0, b1] s ∧
    LoadsAs ⟨io, false, mem, false⟩ io.toNat (.lhu rd rs1 imm) rd (BitVec.ofNat 32 (b1 ++ b0).toNat) a
      [b0, b1] s := by
  have hb : ∀ k (hk : k < [b0, b1].length), GivesByte a k [b0, b1][k] s := fun k hk => by
    have hk2 : k < 2 := hk
    interval_cases k
    · exact h0
    · exact h1
  rw [← signExtend_ofNat_toNat, ← setWidth_ofNat_toNat, ← leValue_half]
  exact ⟨loadsAs_of_exec (exec_lh ..) ha hacc ht rfl hb, loadsAs_of_exec (exec_lhu ..) ha hacc ht rfl hb⟩

theorem wordLoad (hacc : Accessible .load a 4 s) (ht : Touches a 4 s io mem) (h0 : GivesByte a 0 b0 s)
    (h1 : GivesByte a 1 b1 s) (h2 : GivesByte a 2 b2 s) (h3 : GivesByte a 3 b3 s) :
    LoadsAs ⟨io, false, mem, false⟩ io.toNat (.lw rd rs1 imm) rd (b3 ++ b2 ++ b1 ++ b0) a [b0, b1, b2, b3] s := by
  have hb : ∀ k (hk : k < [b0, b1, b2, b3].length), GivesByte a k [b0, b1, b2, b3][k] s := fun k hk => by
    have hk4 : k < 4 := hk
    interval_cases k
    · exact h0
    · exact h1
    · exact h2
    · exact h3
  have hv : BitVec.ofNat 32 (leValue [b0, b1, b2, b3]) = b3 ++ b2 ++ b1 ++ b0 := by
    rw [leValue_word, BitVec.ofNat_toNat]
    exact BitVec.setWidth_eq _
  rw [← hv]
  exact loadsAs_of_exec (exec_lw ..) ha hacc ht rfl hb

end Loads

/-! ### The statements about loads -/

/-- Settles O38: every byte is memory's. -/
theorem loadsReadMemory : Obligations.LoadsReadMemory := by
  intro s rd rs1 imm a b0 b1 b2 b3 ha
  refine ⟨fun hacc hio h0 => ?byte, fun hacc hio h0 h1 => ?half, fun hacc hio h0 h1 h2 h3 => ?word⟩
  case byte =>
    exact byteLoads ha hacc (touches_of_notIO (by decide) hio) (givesByte_of_notIO hio (by decide) h0)
  case half =>
    exact halfLoads ha hacc (touches_of_notIO (by decide) hio) (givesByte_of_notIO hio (by decide) h0)
      (givesByte_of_notIO hio (by decide) h1)
  case word =>
    exact wordLoad ha hacc (touches_of_notIO (by decide) hio) (givesByte_of_notIO hio (by decide) h0)
      (givesByte_of_notIO hio (by decide) h1) (givesByte_of_notIO hio (by decide) h2)
      (givesByte_of_notIO hio (by decide) h3)

/-- Settles O39: the check of all bytes comes before any is read. -/
theorem deniedLoadsAreHandedOff : Obligations.DeniedLoadsAreHandedOff := by
  intro s rd rs1 imm a ha
  exact ⟨fun hd => ⟨handsOff_of_exec_load (exec_lb ..) ha hd, handsOff_of_exec_load (exec_lbu ..) ha hd⟩,
    fun hd => ⟨handsOff_of_exec_load (exec_lh ..) ha hd, handsOff_of_exec_load (exec_lhu ..) ha hd⟩,
    fun hd => handsOff_of_exec_load (exec_lw ..) ha hd⟩

/-- Settles O40: every byte is the device's. -/
theorem deviceLoadsReadTheDevice : Obligations.DeviceLoadsReadTheDevice := by
  intro s rd rs1 imm a b0 b1 b2 b3 ha h0 h1 h2 h3
  refine ⟨fun hacc hio => ?byte, fun hacc hio => ?half, fun hacc hio => ?word⟩
  case byte =>
    exact byteLoads ha hacc (touches_of_allIO (by decide) hio) (givesByte_of_allIO hio (by decide) h0)
  case half =>
    exact halfLoads ha hacc (touches_of_allIO (by decide) hio) (givesByte_of_allIO hio (by decide) h0)
      (givesByte_of_allIO hio (by decide) h1)
  case word =>
    exact wordLoad ha hacc (touches_of_allIO (by decide) hio) (givesByte_of_allIO hio (by decide) h0)
      (givesByte_of_allIO hio (by decide) h1) (givesByte_of_allIO hio (by decide) h2)
      (givesByte_of_allIO hio (by decide) h3)

/-- Settles O44: each byte is given from where it is. -/
theorem loadsOverBothGoByteByByte : Obligations.LoadsOverBothGoByteByByte := by
  intro s rd rs1 imm a b0 b1 b2 b3 ha
  exact ⟨fun hacc hio h0 h1 => halfLoads ha hacc (touches_of_partlyIO hio) h0 h1,
    fun hacc hio h0 h1 h2 h3 => wordLoad ha hacc (touches_of_partlyIO hio) h0 h1 h2 h3⟩

/-- Settles O46: the bytes below have values, the device's or memory's, and this one has none. -/
theorem loadOfUnwrittenByteFaults : Obligations.LoadOfUnwrittenByteFaults := by
  intro s rd rs1 imm a k ha hbelow hio hnone
  have hbelow' : ∀ j < k, loadByte s j (byteAddr a j) ≠ none := by
    intro j hj
    rcases hbelow j hj with h | h
    · simp [loadByte, h]
    · by_cases hio : s.platform.isIO (byteAddr a j) = true
      · simp [loadByte, hio]
      · simpa [loadByte, hio] using h
  have hnone' : loadByte s k (byteAddr a k) = none := by simp [loadByte, hio, hnone]
  exact ⟨fun hk hacc => ⟨faults_of_exec_load (exec_lb ..) ha hacc hk hbelow' hnone',
      faults_of_exec_load (exec_lbu ..) ha hacc hk hbelow' hnone'⟩,
    fun hk hacc => ⟨faults_of_exec_load (exec_lh ..) ha hacc hk hbelow' hnone',
      faults_of_exec_load (exec_lhu ..) ha hacc hk hbelow' hnone'⟩,
    fun hk hacc => faults_of_exec_load (exec_lw ..) ha hacc hk hbelow' hnone'⟩

end Sys2Proof.Machine
end

section
/-! SUPPORT. Stores (spec/42_load_store.md R236 to R240, spec/20_memory.md R63, R72, R77), what loads and fetches see
of them (R64, R262), and the order that FENCE gives (spec/43_fence.md R260). -/

namespace Sys2Proof.Machine

/-! ### What a store leaves (R39, R63, R72) -/

/-- The state after a store of these bytes at `a`, over I/O, over memory or over both. -/
def storedState (a : Word) (bytes : List Byte) (io mem : Bool) (s : State) : State :=
  ((s.storeBytes (byteAddrs a bytes.length) bytes).observe
    (.store { i := false, o := io, r := false, w := mem } a bytes)).retire s.nextPc

section Store

variable {i : Instr} {rs2 rs1 : Reg} {imm : BitVec 12} {n : Nat} {a : Word} {bytes : List Byte} {s : State}

theorem exec_store_accessible {io mem : Bool} (hexec : exec i s = store rs2 rs1 imm n s)
    (ha : a = effectiveAddr rs1 imm s) (hacc : Accessible .store a n s) (ht : Touches a n s io mem) :
    exec i s = .next (storedState a (leBytes n (s.reg rs2).toNat) io mem s) := by
  subst ha
  rcases store_cases rs2 rs1 imm n s with ⟨-, he⟩ | ⟨hd, -⟩
  · rw [hexec, he, storeClasses_of_touches ht, storedState, leBytes_length]
  · exact absurd hacc hd

theorem handsOff_of_exec_store (hexec : exec i s = store rs2 rs1 imm n s) (ha : a = effectiveAddr rs1 imm s)
    (hd : ¬ Accessible .store a n s) : HandsOff i .storeAccessFault (some a) s := by
  subst ha
  rcases store_cases rs2 rs1 imm n s with ⟨hacc, -⟩ | ⟨-, he⟩
  · exact absurd hacc hd
  · exact hexec.trans he

theorem completed_storedState (a : Word) (bytes : List Byte) (io mem : Bool) (s : State) :
    Completed (s.pc + 4#32) s (storedState a bytes io mem s) := by
  simp [Completed, storedState, State.nextPc]

theorem sameRegs_storedState (a : Word) (bytes : List Byte) (io mem : Bool) (s : State) :
    SameRegs [] s (storedState a bytes io mem s) := fun r _ => by simp [storedState]

theorem sameTimers_storedState (a : Word) (bytes : List Byte) (io mem : Bool) (s : State) :
    SameTimers s (storedState a bytes io mem s) := by simp [SameTimers, storedState]

theorem storedState_opLog (a : Word) (bytes : List Byte) (io mem : Bool) (s : State) :
    (storedState a bytes io mem s).opLog =
      .store { i := false, o := io, r := false, w := mem } a bytes :: s.opLog := by
  simp [storedState]

theorem storedState_platform (a : Word) (bytes : List Byte) (io mem : Bool) (s : State) :
    (storedState a bytes io mem s).platform = s.platform := by simp [storedState]

theorem storedState_draws (a : Word) (bytes : List Byte) (io mem : Bool) (s : State) :
    (storedState a bytes io mem s).draws = s.draws := by simp [storedState]

/-- A byte of memory under the store. -/
theorem storedState_at (hl : bytes.length ≤ 2 ^ 32) (io mem : Bool) {k : Nat} (hk : k < bytes.length)
    (hio : s.platform.isIO (byteAddr a k) = false) :
    (storedState a bytes io mem s).mem.read (byteAddr a k) = bytes[k]? ∧
      KeepsOlder (byteAddr a k) s (storedState a bytes io mem s) := by
  have := s.storeBytes_stored (byteAddrs a bytes.length) bytes (byteAddrs_nodup a hl) (by simp) k
    (by simpa using hk) (by simpa using hio)
  rwa [byteAddrs_getElem] at this

/-- A byte outside the store. -/
theorem storedState_outside (io mem : Bool) {b : Word} (hb : b ∉ byteAddrs a bytes.length) :
    (storedState a bytes io mem s).mem.read b = s.mem.read b ∧
      (storedState a bytes io mem s).fetchView.older b = s.fetchView.older b :=
  ⟨s.storeBytes_read_ne _ bytes hb, s.storeBytes_older_ne _ bytes hb⟩

theorem storesToMemory_of_exec (h : exec i s = .next (storedState a bytes false true s))
    (hl : bytes.length ≤ 2 ^ 32) (hio : NotIO a bytes.length s) : StoresToMemory i a bytes s :=
  ⟨_, h, completed_storedState .., fun k hk => (storedState_at hl _ _ hk (hio k hk)).1,
    fun _ hb => (storedState_outside _ _ hb).1, sameRegs_storedState a bytes _ _ s, sameTimers_storedState ..,
    fun k hk => (storedState_at hl _ _ hk (hio k hk)).2, fun _ hb => (storedState_outside _ _ hb).2,
    storedState_platform .., storedState_draws .., storedState_opLog ..⟩

theorem State.storeBytes_allIO (s : State) (as : List Word) (bs : List Byte)
    (h : ∀ a ∈ as, s.platform.isIO a = true) : s.storeBytes as bs = s := by
  induction as generalizing bs with
  | nil => simp
  | cons a as ih =>
    cases bs with
    | nil => simp
    | cons b bs =>
      obtain ⟨ha, has⟩ := List.forall_mem_cons.mp h
      have hbyte : s.storeByte a b = s := by simp [State.storeByte, ha]
      rw [State.storeBytes_cons, hbyte, ih bs has]

theorem storesToDevice_of_exec (h : exec i s = .next (storedState a bytes true false s))
    (hio : AllIO a bytes.length s) : StoresToDevice i a bytes s := by
  have hkeep : s.storeBytes (byteAddrs a bytes.length) bytes = s := by
    refine s.storeBytes_allIO _ _ fun b hb => ?_
    obtain ⟨k, hk, rfl⟩ := mem_byteAddrs.mp hb
    exact hio k hk
  rw [storedState, hkeep] at h
  exact ⟨_, h, ⟨rfl, rfl, rfl⟩, fun _ _ => rfl, fun _ _ => rfl, ⟨rfl, rfl⟩, rfl, rfl, rfl, rfl⟩

theorem storesToBoth_of_exec (h : exec i s = .next (storedState a bytes true true s))
    (hl : bytes.length ≤ 2 ^ 32) : StoresToBoth i a bytes s := by
  refine ⟨_, h, completed_storedState .., sameRegs_storedState a bytes _ _ s, sameTimers_storedState ..,
    fun k hk hio => storedState_at hl _ _ hk hio, fun b hb => ?_, storedState_platform .., storedState_draws ..,
    storedState_opLog ..⟩
  by_cases hmem : b ∈ byteAddrs a bytes.length
  · obtain ⟨k, hk, rfl⟩ := mem_byteAddrs.mp hmem
    have hio : s.platform.isIO (byteAddr a k) = true := by
      by_contra hio
      exact hb k hk (by simpa using hio) rfl
    exact s.storeBytes_io _ _ hio
  · exact storedState_outside _ _ hmem

end Store

/-! ### The bytes of a register (R61, R236 to R238) -/

theorem leBytes_word_eq (w : Word) (n : Nat) :
    leBytes n w.toNat = (List.range n).map (fun k => w.extractLsb' (8 * k) 8) := by
  refine List.ext_getElem? fun k => ?_
  by_cases hk : k < n
  · rw [leBytes_word_getElem? w hk]
    simp [hk]
  · rw [List.getElem?_eq_none (by simpa using hk), List.getElem?_eq_none (by simpa using hk)]

theorem leBytes_byte (w : Word) : leBytes 1 w.toNat = [w.extractLsb' 0 8] := leBytes_word_eq w 1

theorem leBytes_half (w : Word) : leBytes 2 w.toNat = [w.extractLsb' 0 8, w.extractLsb' 8 8] := leBytes_word_eq w 2

theorem leBytes_word (w : Word) : leBytes 4 w.toNat =
    [w.extractLsb' 0 8, w.extractLsb' 8 8, w.extractLsb' 16 8, w.extractLsb' 24 8] := leBytes_word_eq w 4

/-! ### The statements about stores -/

/-- Settles O41: every byte is memory's. -/
theorem storesWriteMemory : Obligations.StoresWriteMemory := by
  intro s rs2 rs1 imm a ha
  rw [← leBytes_byte, ← leBytes_half, ← leBytes_word]
  refine ⟨fun hacc hio => ?byte, fun hacc hio => ?half, fun hacc hio => ?word⟩
  all_goals
    refine storesToMemory_of_exec (exec_store_accessible rfl ha hacc (touches_of_notIO (by decide) hio)) ?_ ?_
    · simp
    · simpa using hio

/-- Settles O42: the check of all bytes comes before any is written. -/
theorem deniedStoresAreHandedOff : Obligations.DeniedStoresAreHandedOff := by
  intro s rs2 rs1 imm a ha
  exact ⟨handsOff_of_exec_store rfl ha, handsOff_of_exec_store rfl ha, handsOff_of_exec_store rfl ha⟩

/-- Settles O43: no byte is memory's. -/
theorem deviceStoresGoToTheDevice : Obligations.DeviceStoresGoToTheDevice := by
  intro s rs2 rs1 imm a ha
  rw [← leBytes_byte, ← leBytes_half, ← leBytes_word]
  refine ⟨fun hacc hio => ?byte, fun hacc hio => ?half, fun hacc hio => ?word⟩
  all_goals
    refine storesToDevice_of_exec (exec_store_accessible rfl ha hacc (touches_of_allIO (by decide) hio)) ?_
    simpa using hio

/-- Settles O45: each byte is stored where it is. -/
theorem storesOverBothGoByteByByte : Obligations.StoresOverBothGoByteByByte := by
  intro s rs2 rs1 imm a ha
  rw [← leBytes_half, ← leBytes_word]
  refine ⟨fun hacc hio => ?half, fun hacc hio => ?word⟩
  all_goals
    exact storesToBoth_of_exec (exec_store_accessible rfl ha hacc (touches_of_partlyIO hio)) (by simp)

/-! ### What the hart sees of its own stores (R64, R77, R262) -/

/-- What SW leaves, in the terms that a later access at the same bytes asks for. -/
theorem sw_leaves {s : State} {rs2 rs1 : Reg} {imm : BitVec 12} {a : Word} (ha : a = effectiveAddr rs1 imm s)
    (hacc : Accessible .store a 4 s) (hio : NotIO a 4 s) :
    ∃ t, exec (.sw rs2 rs1 imm) s = .next t ∧ t.pc = s.pc + 4#32 ∧ t.handoff = s.handoff ∧
      t.platform = s.platform ∧ (∀ r, t.reg r = s.reg r) ∧
      ∀ k < 4, t.mem.read (byteAddr a k) = some ((s.reg rs2).extractLsb' (8 * k) 8) := by
  have h := exec_store_accessible (i := .sw rs2 rs1 imm) rfl ha hacc (touches_of_notIO (by decide) hio)
  obtain ⟨t, hexec, ⟨hpc, -, hhandoff⟩, hbytes, -, hregs, -, -, -, hplatform, -⟩ :=
    storesToMemory_of_exec h (by simp) (by simpa using hio)
  refine ⟨t, hexec, hpc, hhandoff, hplatform, fun r => hregs r (List.not_mem_nil), fun k hk => ?_⟩
  rw [hbytes k (by simpa using hk), leBytes_word_getElem? _ hk]

theorem byteAddr_byteAddr (a : Word) (j k : Nat) : byteAddr (byteAddr a j) k = byteAddr a (j + k) := by
  rw [byteAddr, byteAddr, byteAddr, BitVec.ofNat_add, BitVec.add_assoc]

theorem append_extracts (w : Word) :
    w.extractLsb' 24 8 ++ w.extractLsb' 16 8 ++ w.extractLsb' 8 8 ++ w.extractLsb' 0 8 = w := by
  apply BitVec.eq_of_toNat_eq
  rw [← leValue_word, ← leBytes_word, leValue_leBytes]
  exact Nat.mod_eq_of_lt w.isLt

theorem append_upper_extracts_toNat (w : Word) :
    (w.extractLsb' 24 8 ++ w.extractLsb' 16 8).toNat = w.toNat / 65536 := by
  have := w.isLt
  simp only [toNat_append_byte, BitVec.extractLsb'_toNat, Nat.shiftRight_eq_div_pow]
  omega

/-- Settles O47: the bytes that SW leaves are those that LW, and LHU of the upper half, read. -/
theorem loadAfterStoreSeesTheStore : Obligations.LoadAfterStoreSeesTheStore := by
  intro s rs2 rs1 rd rb imm imm2 a ha hstore hload hio hupper
  obtain ⟨t, hsw, -, -, hplatform, hregs, hbytes⟩ := sw_leaves (rs2 := rs2) ha hstore hio
  have haddr : ∀ r (j : BitVec 12), effectiveAddr r j t = effectiveAddr r j s := fun r j => by
    rw [effectiveAddr, effectiveAddr, hregs]
  have haccT : ∀ k < 4, t.platform.accessible .load (byteAddr a k) = true := by rwa [hplatform]
  have hioT : ∀ k < 4, t.platform.isIO (byteAddr a k) = false := by rwa [hplatform]
  have hbyte : ∀ k < 4, GivesByte a k ((s.reg rs2).extractLsb' (8 * k) 8) t := fun k hk =>
    givesByte_of_notIO hioT hk (hbytes k hk)
  obtain ⟨u, hlw, hu, -⟩ := wordLoad (rd := rd) (rs1 := rs1) (imm := imm) (by rw [haddr, ha]) haccT
    (touches_of_notIO (by decide) hioT) (hbyte 0 (by decide)) (hbyte 1 (by decide)) (hbyte 2 (by decide))
    (hbyte 3 (by decide))
  have hioU : NotIO (byteAddr a 2) 2 t := fun k hk => by
    rw [byteAddr_byteAddr]
    exact hioT _ (by omega)
  have haccU : Accessible .load (byteAddr a 2) 2 t := fun k hk => by
    rw [byteAddr_byteAddr]
    exact haccT _ (by omega)
  have hbyteU : ∀ k < 2, t.mem.read (byteAddr (byteAddr a 2) k) =
      some ((s.reg rs2).extractLsb' (8 * (2 + k)) 8) := fun k hk => by
    rw [byteAddr_byteAddr]
    exact hbytes _ (by omega)
  obtain ⟨-, v, hlhu, hv, -⟩ := halfLoads (rd := rd) (rs1 := rb) (imm := imm2) (by rw [haddr, hupper]) haccU
    (touches_of_notIO (by decide) hioU) (givesByte_of_notIO hioU (by decide) (hbyteU 0 (by decide)))
    (givesByte_of_notIO hioU (by decide) (hbyteU 1 (by decide)))
  exact ⟨t, u, v, hsw, hlw, hu.trans (congrArg _ (append_extracts _)), hlhu,
    hv.trans (congrArg (fun n => written rd (BitVec.ofNat 32 n)) (append_upper_extracts_toNat _))⟩

/-- Settles O52: memory holds the stored word, and FENCE.I leaves fetch no older byte of it. -/
theorem storedInstructionRunsAfterFenceI : Obligations.StoredInstructionRunsAfterFenceI := by
  intro s rs2 rs1 imm i hs haddr hstore hfetch hio hd
  obtain ⟨t, hsw, hpc, hhandoff, hplatform, -, hbytes⟩ := sw_leaves (rs2 := rs2) haddr.symm hstore hio
  refine ⟨t, { t with fetchView := FetchView.empty }.retire t.nextPc, hsw, rfl, ?_⟩
  have hpcU : t.nextPc = s.pc + 8#32 := by
    rw [State.nextPc, hpc, BitVec.add_assoc]
    rfl
  refine stepRunsTheDecodedInstruction _ (s.reg rs2) i (hhandoff.trans hs) ⟨?_, ?_, fun k _ => rfl⟩ ?_ hd
  · intro k hk
    rw [State.retire_pc, State.retire_platform, hpcU, hplatform]
    exact hfetch k hk
  · intro k hk
    rw [State.retire_pc, State.retire_platform, hpcU, hplatform]
    exact hio k hk
  · intro k hk
    rw [State.retire_pc, State.retire_mem, hpcU]
    exact hbytes k hk

/-! ### FENCE and FENCE.I (R75, R260, R262) -/

/-- Settles O48: FENCE joins the log and completes. -/
theorem fenceJoinsTheOrder : Obligations.FenceJoinsTheOrder := fun _ _ _ => rfl

/-- Settles O51: FENCE.I sets the fetch view to the empty one and completes. -/
theorem fenceIEmptiesTheFetchView : Obligations.FenceIEmptiesTheFetchView := fun _ =>
  ⟨_, rfl, rfl, FetchView.older_empty⟩

/-- No step takes an operation from the log. -/
theorem step_opLog {s t : State} (h : step s = .next t) : ∃ ops, t.opLog = ops ++ s.opLog := by
  rcases step_outcomes h with ⟨-, r, -, -, rfl⟩ | ⟨-, i, d, hret⟩ | ⟨-, cause, info, d, -, rfl⟩
  · exact ⟨[], rfl⟩
  · simpa using hret.opLog
  · exact ⟨[], by simp⟩

theorem stepsTo_opLog {n : Nat} {s t : State} (h : StepsTo n s t) : ∃ ops, t.opLog = ops ++ s.opLog := by
  induction n generalizing s with
  | zero =>
    obtain rfl : t = s := h
    exact ⟨[], rfl⟩
  | succ n ih =>
    obtain ⟨u, hstep, hrun⟩ := h
    obtain ⟨ops, hops⟩ := ih hrun
    obtain ⟨ops', hops'⟩ := step_opLog hstep
    exact ⟨ops ++ ops', by rw [hops, hops', List.append_assoc]⟩

/-- Settles O49: the FENCE stands between the later operations and the earlier ones, and no run removes it. -/
theorem fenceOrdersOperationsAroundIt : Obligations.FenceOrdersOperationsAroundIt := by
  intro s t pred succ h
  obtain rfl := Host.Outcome.next.inj ((fenceJoinsTheOrder s pred succ).symm.trans h)
  refine ⟨?order, fun n u hrun => stepsTo_opLog hrun⟩
  case order =>
    intro after x y earlier later hx hxp hy hys
    obtain ⟨hlater, -⟩ := List.getElem?_eq_some_iff.mp hy
    refine ⟨after.length, pred, succ, x, y, hlater, by omega, by simp, ?_, ?_, hxp, hys⟩
    · rw [List.getElem?_append_right (by omega), Nat.add_assoc, Nat.add_sub_cancel_left, Nat.add_comm 1]
      exact hx
    · rw [List.getElem?_append_left hlater]
      exact hy

theorem meets_nothing (f : FenceSet) : f.meets { i := false, o := false, r := false, w := false } = false := by
  simp [FenceSet.meets]

/-- Settles O50: no operation is of a class in an empty set. -/
theorem emptyFencesOrderNothing : Obligations.EmptyFencesOrderNothing := by
  rintro log earlier later hempty ⟨k, pred, succ, x, y, -, -, hk, -, -, hx, hy⟩
  rcases hempty pred succ (List.mem_of_getElem? hk) with rfl | rfl
  · cases (meets_nothing _).symm.trans hx
  · cases (meets_nothing _).symm.trans hy

end Sys2Proof.Machine
end

section
/-! SUPPORT. The CSR instructions and the counters (spec/44_csr_counters.md R280 to R293), and ECALL and EBREAK
(spec/45_environment.md R320, R321). -/

namespace Sys2Proof.Machine

/-! ### The halves of a counter (R33) -/

theorem lowHalf_eq_ofNat (v : DWord) : lowHalf v = BitVec.ofNat 32 v.toNat := by
  apply BitVec.eq_of_toNat_eq
  rw [lowHalf, BitVec.extractLsb'_toNat, BitVec.toNat_ofNat, Nat.shiftRight_zero]

theorem highHalf_eq_ofNat (v : DWord) : highHalf v = BitVec.ofNat 32 (v.toNat / 2 ^ 32) := by
  apply BitVec.eq_of_toNat_eq
  rw [highHalf, BitVec.extractLsb'_toNat, BitVec.toNat_ofNat, Nat.shiftRight_eq_div_pow]

theorem highHalf_toNat (v : DWord) : (highHalf v).toNat = v.toNat / 2 ^ 32 := by
  have := v.isLt
  rw [highHalf_eq_ofNat, BitVec.toNat_ofNat]
  omega

theorem lowHalf_toNat (v : DWord) : (lowHalf v).toNat = v.toNat % 2 ^ 32 := by
  rw [lowHalf_eq_ofNat, BitVec.toNat_ofNat]

theorem highHalf_append_lowHalf (v : DWord) : highHalf v ++ lowHalf v = v := by
  apply BitVec.eq_of_toNat_eq
  rw [BitVec.toNat_append, ← Nat.shiftLeft_add_eq_or_of_lt (lowHalf v).isLt, Nat.shiftLeft_eq, highHalf_toNat,
    lowHalf_toNat]
  omega

theorem lowHalf_add_one (v : DWord) : lowHalf (v + 1#64) = lowHalf v + 1#32 := by
  rw [lowHalf_eq_ofNat, lowHalf_eq_ofNat, BitVec.toNat_add]
  apply BitVec.eq_of_toNat_eq
  simp only [BitVec.toNat_add, BitVec.toNat_ofNat]
  omega

/-- A counter read between two readings with equal high halves has that high half (R293). -/
theorem eq_append_of_between {before mid after : DWord} (hle : before.toNat ≤ mid.toNat)
    (hle' : mid.toNat ≤ after.toNat) (hhigh : highHalf before = highHalf after) :
    mid = highHalf before ++ lowHalf mid := by
  have hmid : highHalf mid = highHalf before := by
    have hends := congrArg BitVec.toNat hhigh
    apply BitVec.eq_of_toNat_eq
    simp only [highHalf_toNat] at hends ⊢
    omega
  rw [← hmid, highHalf_append_lowHalf]

/-! ### Reads (R287) -/

/-- The state after a CSR instruction that reads `c` into rd and writes nothing. -/
def readInto (c : Csr) (rd : Reg) (s : State) : State := ((csrRead c s).2.setReg rd (csrRead c s).1).retire s.nextPc

section Reads

variable (c : Csr) (rd : Reg) (s : State)

theorem csrRead_reg (r : Reg) : (csrRead c s).2.reg r = s.reg r := State.reg_congr (csrRead_rest c s).1 r

theorem readInto_reg_same : (readInto c rd s).reg rd = written rd (csrRead c s).1 := by simp [readInto]

theorem readInto_reg_ne {q : Reg} (h : q ≠ rd) : (readInto c rd s).reg q = s.reg q := by
  rw [readInto, State.retire_reg, State.reg_setReg_ne _ _ _ h, csrRead_reg]

theorem readInto_instret : (readInto c rd s).instret = s.instret + 1#64 := by
  simp [readInto, (csrRead_rest c s).2.2.1]

theorem readInto_cycle : (readInto c rd s).cycle = (csrRead c s).2.cycle := by simp [readInto]

theorem readInto_time : (readInto c rd s).time = (csrRead c s).2.time := by simp [readInto]

end Reads

theorem written_of_ne {rd : Reg} (h : rd ≠ 0#5) (v : Word) : written rd v = v := if_neg h

/-- A CSR instruction that may not write, and finds its CSR, reads. -/
theorem exec_eq_readInto {i : Instr} {op : CsrOp} {csr : BitVec 12} {c : Csr} {rd : Reg} {field : BitVec 5}
    {operand : Word} {s : State} (h : exec i s = csrInstruction op (encode i) csr rd field operand s)
    (hc : csrAt csr = some c) (hw : csrWrites op field = false) : exec i s = .next (readInto c rd s) := by
  rcases csrInstruction_cases op (encode i) csr rd field operand s with ⟨hn | hw', -⟩ | ⟨c', hc', -, he⟩
  · cases hc.symm.trans hn
  · cases hw.symm.trans hw'
  · obtain rfl := Option.some.inj (hc.symm.trans hc')
    exact h.trans he

theorem exec_pureRead {i : Instr} {rd : Reg} {a : BitVec 12} {c : Csr} (hi : i ∈ pureReads rd a)
    (hc : csrAt a = some c) (s : State) : exec i s = .next (readInto c rd s) := by
  simp only [pureReads, List.mem_cons, List.not_mem_nil, or_false] at hi
  rcases hi with rfl | rfl | rfl | rfl
  · exact exec_eq_readInto (op := .setBits) rfl hc rfl
  · exact exec_eq_readInto (op := .clearBits) rfl hc rfl
  · exact exec_eq_readInto (op := .setBits) rfl hc rfl
  · exact exec_eq_readInto (op := .clearBits) rfl hc rfl

/-- Settles O53: a read of instret asks no oracle, so it is a result written to rd. -/
theorem instretReadsTheCountBefore : Obligations.InstretReadsTheCountBefore := by
  intro s rd
  rw [← lowHalf_eq_ofNat, ← highHalf_eq_ofNat]
  exact ⟨fun i hi => writesRegister_of_exec (exec_pureRead (c := .instret) hi rfl s),
    fun i hi => writesRegister_of_exec (exec_pureRead (c := .instreth) hi rfl s)⟩

section Counters

variable {i : Instr} {rd : Reg} {half : DWord → Word} {s : State}

theorem readsCounter_cycle
    (h : exec i s = .next ((s.drawCycle.setReg rd (half s.drawCycle.cycle)).retire s.nextPc)) :
    ReadsCounter i rd State.cycle Config.cycleDraw half (fun s t => t.time = s.time) s := by
  refine ⟨_, h, by simp [drawn_toNat], by simp, by simp [Completed, State.nextPc], fun r hr => ?_,
    fun _ _ => by simp, by simp, by simp, by simp, by simp, by simp⟩
  rw [State.retire_reg, State.reg_setReg_ne _ _ _ (List.ne_of_not_mem_cons hr), State.drawCycle_reg]

theorem readsCounter_time
    (h : exec i s = .next ((s.drawTime.setReg rd (half s.drawTime.time)).retire s.nextPc)) :
    ReadsCounter i rd State.time Config.timeDraw half (fun s t => t.cycle = s.cycle) s := by
  refine ⟨_, h, by simp [drawn_toNat], by simp, by simp [Completed, State.nextPc], fun r hr => ?_,
    fun _ _ => by simp, by simp, by simp, by simp, by simp, by simp⟩
  rw [State.retire_reg, State.reg_setReg_ne _ _ _ (List.ne_of_not_mem_cons hr), State.drawTime_reg]

end Counters

/-- Settles O54: the read draws the counter, and rd gets a half of what the counter then holds. -/
theorem counterReadsAreMonotoneDraws : Obligations.CounterReadsAreMonotoneDraws := by
  intro s rd
  simp only [← lowHalf_eq_ofNat, ← highHalf_eq_ofNat]
  exact ⟨fun i hi => readsCounter_cycle (exec_pureRead (c := .cycle) hi rfl s),
    fun i hi => readsCounter_cycle (exec_pureRead (c := .cycleh) hi rfl s),
    fun i hi => readsCounter_time (exec_pureRead (c := .time) hi rfl s),
    fun i hi => readsCounter_time (exec_pureRead (c := .timeh) hi rfl s)⟩

/-! ### Refusals (R34, R35, R289) -/

theorem handsOff_of_exec_csr {i : Instr} {op : CsrOp} {csr : BitVec 12} {rd : Reg} {field : BitVec 5}
    {operand : Word} {s : State} (h : exec i s = csrInstruction op (encode i) csr rd field operand s)
    (hr : csrAt csr = none ∨ csrWrites op field = true) :
    HandsOff i .illegalInstruction (some (encode i)) s := by
  rcases csrInstruction_cases op (encode i) csr rd field operand s with ⟨-, he⟩ | ⟨c, hc, hw, -⟩
  · exact h.trans he
  · rcases hr with hn | hw'
    · cases hc.symm.trans hn
    · cases hw.symm.trans hw'

/-- Settles O55: all six CSRs are read-only. -/
theorem csrWritesAreHandedOff : Obligations.CsrWritesAreHandedOff := by
  intro s rd csr field
  refine ⟨?always, fun hf => ?unlessZero⟩
  case always =>
    simp only [List.forall_mem_cons, List.not_mem_nil, false_implies, implies_true, and_true]
    exact ⟨handsOff_of_exec_csr (op := .swap) rfl (.inr rfl), handsOff_of_exec_csr (op := .swap) rfl (.inr rfl)⟩
  case unlessZero =>
    have hset : csrWrites .setBits field = true := bne_iff_ne.mpr hf
    have hclear : csrWrites .clearBits field = true := bne_iff_ne.mpr hf
    simp only [List.forall_mem_cons, List.not_mem_nil, false_implies, implies_true, and_true]
    exact ⟨handsOff_of_exec_csr rfl (.inr hset), handsOff_of_exec_csr rfl (.inr hclear),
      handsOff_of_exec_csr rfl (.inr hset), handsOff_of_exec_csr rfl (.inr hclear)⟩

/-- Settles O56: the address is looked up before anything else. -/
theorem absentCsrsAreHandedOff : Obligations.AbsentCsrsAreHandedOff := by
  intro s rd csr field habsent
  have hnone : csrAt csr = none := (csrAt_eq_none_iff csr).mpr habsent
  simp only [List.forall_mem_cons, List.not_mem_nil, false_implies, implies_true, and_true]
  refine ⟨?csrrw, ?csrrs, ?csrrc, ?csrrwi, ?csrrsi, ?csrrci⟩
  all_goals exact handsOff_of_exec_csr rfl (.inl hnone)

/-! ### Sequences of reads (R288, R293) -/

theorem exec_csrr {a : BitVec 12} {c : Csr} (hc : csrAt a = some c) (rd : Reg) (s : State) :
    exec (Pseudo.csrr rd a) s = .next (readInto c rd s) :=
  exec_pureRead (by simp [Pseudo.csrr, pureReads]) hc s

/-- Settles O57: the second read finds the first one counted. -/
theorem consecutiveInstretReadsDifferByOne : Obligations.ConsecutiveInstretReadsDifferByOne := by
  intro s r q hr hq hne
  refine ⟨_, _, exec_csrr (c := .instret) rfl r s, exec_csrr (c := .instret) rfl q _, ?_⟩
  rw [readInto_reg_same, readInto_reg_ne _ _ _ hne, readInto_reg_same, written_of_ne hr, written_of_ne hq]
  simp only [csrRead, readInto_instret]
  exact lowHalf_add_one s.instret

/-- What three reads leave in their registers. -/
theorem threeReads_regs {h l g : Reg} (hh : h ≠ 0#5) (hl : l ≠ 0#5) (hg : g ≠ 0#5) (hhl : h ≠ l) (hhg : h ≠ g)
    (hlg : l ≠ g) (high low : Csr) (s : State) :
    (readInto high g (readInto low l (readInto high h s))).reg h = (csrRead high s).1 ∧
    (readInto high g (readInto low l (readInto high h s))).reg l = (csrRead low (readInto high h s)).1 ∧
    (readInto high g (readInto low l (readInto high h s))).reg g =
      (csrRead high (readInto low l (readInto high h s))).1 := by
  refine ⟨?_, ?_, ?_⟩
  · rw [readInto_reg_ne _ _ _ hhg, readInto_reg_ne _ _ _ hhl, readInto_reg_same, written_of_ne hh]
  · rw [readInto_reg_ne _ _ _ hlg, readInto_reg_same, written_of_ne hl]
  · rw [readInto_reg_same, written_of_ne hg]

theorem readInto_monotone (c : Csr) (rd : Reg) (s : State) :
    s.cycle.toNat ≤ (readInto c rd s).cycle.toNat ∧ s.time.toNat ≤ (readInto c rd s).time.toNat := by
  rw [readInto_cycle, readInto_time]
  exact csrRead_monotone c s

/-! A read of cycle or time gives a half of what the counter holds after it. -/

section ReadHalves

variable (rd : Reg) (s : State)

theorem csrRead_cycle : (csrRead .cycle s).1 = lowHalf (readInto .cycle rd s).cycle := by
  rw [readInto_cycle]
  rfl

theorem csrRead_cycleh : (csrRead .cycleh s).1 = highHalf (readInto .cycleh rd s).cycle := by
  rw [readInto_cycle]
  rfl

theorem csrRead_time : (csrRead .time s).1 = lowHalf (readInto .time rd s).time := by
  rw [readInto_time]
  rfl

theorem csrRead_timeh : (csrRead .timeh s).1 = highHalf (readInto .timeh rd s).time := by
  rw [readInto_time]
  rfl

end ReadHalves

/-- Two more retirements that leave the high half as it was leave it so after the first (R288). -/
theorem eq_append_of_counted {n : DWord} (h : highHalf n = highHalf (n + 1#64 + 1#64)) :
    n + 1#64 = highHalf n ++ lowHalf (n + 1#64) := by
  have hmid : highHalf (n + 1#64) = highHalf n := by
    have hends := congrArg BitVec.toNat h
    apply BitVec.eq_of_toNat_eq
    simp only [highHalf_toNat, BitVec.toNat_add, BitVec.toNat_ofNat] at hends ⊢
    omega
  rw [← hmid, highHalf_append_lowHalf]

/-- Settles O58: the counter at the low read lies between its values at the two high reads. -/
theorem highLowHighReadsAreConsistent : Obligations.HighLowHighReadsAreConsistent := by
  intro s h l g hh hl hg hhl hhg hlg
  have hregs := fun high low => threeReads_regs hh hl hg hhl hhg hlg high low s
  refine ⟨?cycle, ?time, ?instret⟩
  case cycle =>
    refine ⟨_, _, _, exec_csrr (c := .cycleh) rfl h s, exec_csrr (c := .cycle) rfl l _,
      exec_csrr (c := .cycleh) rfl g _, fun heq => ?_⟩
    obtain ⟨hregh, hregl, hregg⟩ := hregs .cycleh .cycle
    rw [hregh, hregg, csrRead_cycleh h, csrRead_cycleh g] at heq
    rw [hregh, hregl, csrRead_cycleh h, csrRead_cycle l]
    exact eq_append_of_between (readInto_monotone .cycle l _).1 (readInto_monotone .cycleh g _).1 heq
  case time =>
    refine ⟨_, _, _, exec_csrr (c := .timeh) rfl h s, exec_csrr (c := .time) rfl l _,
      exec_csrr (c := .timeh) rfl g _, fun heq => ?_⟩
    obtain ⟨hregh, hregl, hregg⟩ := hregs .timeh .time
    rw [hregh, hregg, csrRead_timeh h, csrRead_timeh g] at heq
    rw [hregh, hregl, csrRead_timeh h, csrRead_time l]
    exact eq_append_of_between (readInto_monotone .time l _).2 (readInto_monotone .timeh g _).2 heq
  case instret =>
    refine ⟨_, _, _, exec_csrr (c := .instreth) rfl h s, exec_csrr (c := .instret) rfl l _,
      exec_csrr (c := .instreth) rfl g _, fun heq => ?_⟩
    obtain ⟨hregh, hregl, hregg⟩ := hregs .instreth .instret
    rw [hregh, hregg] at heq
    rw [hregh, hregl]
    simp only [csrRead, readInto_instret] at heq ⊢
    exact eq_append_of_counted heq

/-! ### ECALL and EBREAK -/

/-- Settles O60: both are the one trap entry, without an info. -/
theorem ecallAndEbreakHandOff : Obligations.EcallAndEbreakHandOff := fun _ => ⟨rfl, rfl⟩

end Sys2Proof.Machine
end
